-- ==== Sys2Proof/Word.lean ====
section
/-! DEFINITION. The widths of the block's data and the named values its registers hold.

Every field of a frame is one byte (rule R52); an input event is a 10-bit word (R80) and the control inputs are a 4-bit
vector (R85). The registers `state`, `run`, `pend` and the fields `e_kind`, `e_cause` hold named values, and no operation
writes their reserved codes (R91), so they are enumerations here (93_implementation_defined.md section 2 allows it; log
entry 13). Their numeric codes stand in Machine/Flags.lean. -/

namespace Sys2Proof

/-- A byte: an unsigned integer 0 to 255 (R7). -/
abbrev Byte := BitVec 8

/-- The event word `EW = {rx_kind[1:0], rx_data[7:0]}` (R80). -/
abbrev EventWord := BitVec 10

/-- The control vector `CV = {rst, start, pkt_ready, err_ready}` (R85). -/
abbrev ControlVector := BitVec 4

/-- The values of the frame state register `state` (R22). -/
inductive FrameState where
  | seekStart
  | readAddress
  | readLength
  | readMessage
  | readChecksum
  deriving DecidableEq, Repr

/-- The values of the lifecycle register `run` (R21). -/
inductive RunState where
  | idle
  | running
  | terminated
  deriving DecidableEq, Repr

/-- The values of the pending-output register `pend` (R28). -/
inductive Pending where
  | none
  | pkt
  | err
  deriving DecidableEq, Repr

/-- The error kinds (R86). `none` is code 0, the value of `e_kind` after reset; `frameTooLarge` is produced by ENC only. -/
inductive ErrKind where
  | none
  | startNotFound
  | length
  | checksumMismatch
  | transportError
  | frameTooLarge
  deriving DecidableEq, Repr

/-- The cause codes of kind LENGTH (R87). `range` is code 0, which is also what the field holds for every other kind. -/
inductive ErrCause where
  | range
  | truncated
  deriving DecidableEq, Repr

end Sys2Proof
end

