-- ==== Sys2Proof/Config.lean ====
section
/-! DEFINITION. The implementation parameters of rule R5, and the values the spec leaves open as constants without a body.

`MAX_LEN`, `CHK` and `RESYNC_MODE` are fixed at elaboration and constant while the block runs (R5, R231). The record
`Params` holds one choice of them; State carries it in a field no operation writes (log entry 1). -/

namespace Sys2Proof

/-- `START_BYTE`, 0xFF in every configuration (R6). -/
def START_BYTE : Byte := 0xFF

/-- A legal value of `MAX_LEN`: 1 to 255 (R5). -/
structure MaxLen where
  val : Nat
  pos : 1 ≤ val
  le : val ≤ 255
  deriving DecidableEq, Repr

/-- `RESYNC_MODE` (R170). -/
inductive ResyncMode where
  | cursor
  | rescan
  deriving DecidableEq, Repr

/-- Which function the parameter `CHK` is: the device's own, which no source gives (R130), or the reference function of
the spec's test vectors, `CHK_REF` (R131). -/
inductive ChkFunction where
  | device
  | reference
  deriving DecidableEq, Repr

/-- One choice of the parameters of R5 (`START_BYTE` is fixed). -/
structure Params where
  maxLen : MaxLen
  chk : ChkFunction
  resync : ResyncMode
  deriving DecidableEq, Repr

/-- FREE VALUE: the device's checksum function (R130: OPEN). `Sys2Proof.Machine.chkDevice` keeps the two limits the spec
puts on it (R134). Log entry 3. -/
opaque Config.chkFree : Byte → Byte → List Byte → Byte

/-- FREE VALUE: which of the 255 admissible values the device's checksum has at the point of constraint K2 (R134).
Log entry 3. -/
opaque Config.chkFreeK2 : Fin 255

/-- FREE VALUE: the device's `MAX_LEN`, less 1 (R5: OPEN, 1 to 255). Log entry 2. -/
opaque Config.maxLenFree : Fin 255

/-- The device's `MAX_LEN`: some value 1 to 255 (R5). -/
def Config.deviceMaxLen : MaxLen :=
  { val := Config.maxLenFree.val + 1
    pos := Nat.le_add_left 1 _
    le := Config.maxLenFree.isLt }

/-- The parameters of this hardware (R5): `MAX_LEN` and `CHK` open, `RESYNC_MODE` = CURSOR. -/
def Config.hardware : Params :=
  { maxLen := Config.deviceMaxLen, chk := .device, resync := .cursor }

/-- The reference configuration of the test vectors (00_scope.md section 5): `MAX_LEN` = 255, `CHK_REF`, CURSOR. -/
def Config.referenceConfiguration : Params :=
  { maxLen := { val := 255, pos := by decide, le := by decide }, chk := .reference, resync := .cursor }

end Sys2Proof
end

