-- ==== Sys2Proof/Syntax.lean ====
section
/-! DEFINITION. The operations of the block: one constructor for each row of spec/opcode_table.json.

The block has no instruction set; an operation is its response to one input event, one handshake on a control input, one
replayed byte, or the reference function ENC (R2). An operand holds every bit of the row's word that the pattern leaves
free, the ignored ones too, so that no word loses a bit when it is decoded. -/

namespace Sys2Proof

inductive Instr where
  /-- SEEK.SKIP (R100): `00bbbbbbbb`, b != START_BYTE. -/
  | seekSkip (b : Byte)
  /-- SEEK.SYNC (R101): `0011111111`. -/
  | seekSync
  /-- SEEK.EOS (R102): `01xxxxxxxx`, x ignored. -/
  | seekEos (x : Byte)
  /-- ADDR.LATCH (R110): `00bbbbbbbb`. -/
  | addrLatch (b : Byte)
  /-- LEN.ACCEPT (R111): `00bbbbbbbb`, 1 <= b <= MAX_LEN. -/
  | lenAccept (b : Byte)
  /-- LEN.REJECT (R112): `00bbbbbbbb`, b = 0 or b > MAX_LEN. -/
  | lenReject (b : Byte)
  /-- MSG.STORE (R120): `00bbbbbbbb`. -/
  | msgStore (b : Byte)
  /-- CHK.PASS (R132): `00bbbbbbbb`, b = CHK(...). -/
  | chkPass (b : Byte)
  /-- CHK.FAIL (R133): `00bbbbbbbb`, b != CHK(...). -/
  | chkFail (b : Byte)
  /-- FRAME.EOS (R140): `01xxxxxxxx`, x ignored. -/
  | frameEos (x : Byte)
  /-- TRANSPORT.ERROR (R142): `10cccccccc`. -/
  | transportError (c : Byte)
  /-- RSV.KIND (R143): `11xxxxxxxx`. -/
  | rsvKind (x : Byte)
  /-- RESET (R220): control vector `1xxx`; the other three inputs are not looked at. -/
  | reset (start pktReady errReady : Bool)
  /-- START (R154): control vector `01xx`. -/
  | start (pktReady errReady : Bool)
  /-- PKT.ACCEPT (R151): control vector `0x1x`. -/
  | pktAccept (start errReady : Bool)
  /-- ERR.ACCEPT (R152): control vector `0xx1`. -/
  | errAccept (start pktReady : Bool)
  /-- REPLAY.BYTE (R173): internal; its byte is the head of `rpl`. -/
  | replayByte
  /-- ENC (R190): the reference encoder on an Address and a Packet (MessageType, Payload). -/
  | enc (address messageType : Byte) (payload : List Byte)
  deriving DecidableEq, Repr

end Sys2Proof
end

