-- ==== Sys2Proof/WellFormed.lean ====
section
/-! DEFINITION. The checks on an operation's operands that the opcode table's condition column makes without looking at a
register: they depend on the parameters alone. -/

namespace Sys2Proof

/-- The operands are ones the row admits under the parameters `p`. -/
def Instr.wellFormed (p : Params) : Instr → Bool
  | .seekSkip b => b != START_BYTE
  | .seekSync => true
  | .seekEos _ => true
  | .addrLatch _ => true
  | .lenAccept b => decide (1 ≤ b.toNat) && decide (b.toNat ≤ p.maxLen.val)
  | .lenReject b => decide (b.toNat = 0) || decide (p.maxLen.val < b.toNat)
  | .msgStore _ => true
  | .chkPass _ => true
  | .chkFail _ => true
  | .frameEos _ => true
  | .transportError _ => true
  | .rsvKind _ => true
  | .reset _ _ _ => true
  | .start _ _ => true
  | .pktAccept _ _ => true
  | .errAccept _ _ => true
  | .replayByte => p.resync == .rescan
  | .enc _ _ _ => true

end Sys2Proof
end

