-- ==== Sys2Proof/Decode.lean ====
section
/-! DEFINITION. The decoder (the operation map of rule R89 and the control vector of R85), and the encoder.

A word alone does not name an operation: the same event word `00bbbbbbbb` is eight operations, told apart by the frame
state and by the row's condition. `Context` is what R85 and R89 select by besides the word. -/

namespace Sys2Proof

/-- What selects an operation besides the word: the registers `run`, `pend`, `state`, the parameters, and the value
`CHK(addr_r, len_r, mbuf[0 .. len_r))` (no value where an entry it reads holds none). -/
structure Context where
  run : RunState
  pend : Pending
  state : FrameState
  cfg : Params
  check : Option Byte
  deriving DecidableEq, Repr

/-- A word of the opcode table: an event word (format EVT10) or a control vector (format CTRL4). -/
inductive TableWord where
  | event (ew : EventWord)
  | control (cv : ControlVector)
  deriving DecidableEq, Repr

/-- Why a word gives no operation. -/
inductive DecodeReject where
  /-- No bit of the control vector selects an operation in this context (R85: "has no effect otherwise"). -/
  | nothingSelected
  /-- No row of the opcode table has words of this width. -/
  | noSuchWidth
  /-- A bit is set above the row's word: there is no such input. -/
  | bitsAboveWord
  deriving DecidableEq, Repr

/-- `rx_kind` = EW[9:8] (R80). -/
def eventKind (ew : EventWord) : BitVec 2 := ew.extractLsb' 8 2

/-- `rx_data` = EW[7:0] (R80). -/
def eventData (ew : EventWord) : Byte := ew.extractLsb' 0 8

/-- The BYTE rows of R89: the operation a byte performs in each frame state. -/
def decodeByte (c : Context) (b : Byte) : Instr :=
  match c.state with
  | .seekStart => if b = START_BYTE then .seekSync else .seekSkip b
  | .readAddress => .addrLatch b
  | .readLength => if 1 ≤ b.toNat ∧ b.toNat ≤ c.cfg.maxLen.val then .lenAccept b else .lenReject b
  | .readMessage => .msgStore b
  | .readChecksum => if c.check = some b then .chkPass b else .chkFail b

/-- The operation map of R89. Total: every event word is one operation in every context (R90). -/
def decodeEvent (c : Context) (ew : EventWord) : Instr :=
  let d := eventData ew
  if eventKind ew = 0 then decodeByte c d
  else if eventKind ew = 1 then
    match c.state with
    | .seekStart => .seekEos d
    | .readAddress => .frameEos d
    | .readLength => .frameEos d
    | .readMessage => .frameEos d
    | .readChecksum => .frameEos d
  else if eventKind ew = 2 then .transportError d
  else .rsvKind d

/-- The operation a control vector selects (R85), in the order of R232. -/
def decodeControl (c : Context) (cv : ControlVector) : Except DecodeReject Instr :=
  let rst := cv.getLsbD 3
  let start := cv.getLsbD 2
  let pktReady := cv.getLsbD 1
  let errReady := cv.getLsbD 0
  if rst then .ok (.reset start pktReady errReady)
  else if start && c.run == .idle then .ok (.start pktReady errReady)
  else if pktReady && c.pend == .pkt then .ok (.pktAccept start errReady)
  else if errReady && c.pend == .err then .ok (.errAccept start pktReady)
  else .error .nothingSelected

/-- The decoder: the operation a word of the opcode table performs in a context. -/
def decode (c : Context) : TableWord → Except DecodeReject Instr
  | .event ew => .ok (decodeEvent c ew)
  | .control cv => decodeControl c cv

/-- The state and condition columns of spec/opcode_table.json, row by row: when an operation is the one its word performs.
Written apart from the decoder, which is compared with it. -/
def Instr.selectedIn (c : Context) : Instr → Bool
  | .seekSkip b => c.state == .seekStart && b != START_BYTE
  | .seekSync => c.state == .seekStart
  | .seekEos _ => c.state == .seekStart
  | .addrLatch _ => c.state == .readAddress
  | .lenAccept b => c.state == .readLength && decide (1 ≤ b.toNat) && decide (b.toNat ≤ c.cfg.maxLen.val)
  | .lenReject b => c.state == .readLength && (b == 0 || decide (c.cfg.maxLen.val < b.toNat))
  | .msgStore _ => c.state == .readMessage
  | .chkPass b => c.state == .readChecksum && c.check == some b
  | .chkFail b => c.state == .readChecksum && c.check != some b
  | .frameEos _ => c.state != .seekStart
  | .transportError _ => true
  | .rsvKind _ => true
  | .reset _ _ _ => true
  | .start _ _ => c.run == .idle
  | .pktAccept _ _ => c.pend == .pkt
  | .errAccept _ _ => c.pend == .err
  | .replayByte => c.cfg.resync == .rescan
  | .enc _ _ _ => true

/-- The event word of a kind and a data byte (R80). -/
def eventWord (kind : BitVec 2) (data : Byte) : EventWord := kind ++ data

/-- The control vector of its four inputs (R85). -/
def controlVector (rst start pktReady errReady : Bool) : ControlVector :=
  BitVec.ofBool rst ++ BitVec.ofBool start ++ BitVec.ofBool pktReady ++ BitVec.ofBool errReady

/-- The encoder: the word of each row, from the pattern of spec/opcode_table.json. REPLAY.BYTE is internal and ENC is a
function: their rows have no word. -/
def encode : Instr → Option TableWord
  | .seekSkip b => some (.event (eventWord 0 b))
  | .seekSync => some (.event (eventWord 0 START_BYTE))
  | .seekEos x => some (.event (eventWord 1 x))
  | .addrLatch b => some (.event (eventWord 0 b))
  | .lenAccept b => some (.event (eventWord 0 b))
  | .lenReject b => some (.event (eventWord 0 b))
  | .msgStore b => some (.event (eventWord 0 b))
  | .chkPass b => some (.event (eventWord 0 b))
  | .chkFail b => some (.event (eventWord 0 b))
  | .frameEos x => some (.event (eventWord 1 x))
  | .transportError c => some (.event (eventWord 2 c))
  | .rsvKind x => some (.event (eventWord 3 x))
  | .reset start pktReady errReady => some (.control (controlVector true start pktReady errReady))
  | .start pktReady errReady => some (.control (controlVector false true pktReady errReady))
  | .pktAccept start errReady => some (.control (controlVector false start true errReady))
  | .errAccept start pktReady => some (.control (controlVector false start pktReady true))
  | .replayByte => none
  | .enc _ _ _ => none

/-- A word as the opcode table numbers its bits: 16 bits hold an event word, 8 bits a control vector. Wider values are
refused by name. -/
def tableWord (nbits w : Nat) : Except DecodeReject TableWord :=
  if nbits = 16 then
    if w < 1024 then .ok (.event (BitVec.ofNat 10 w)) else .error .bitsAboveWord
  else if nbits = 8 then
    if w < 16 then .ok (.control (BitVec.ofNat 4 w)) else .error .bitsAboveWord
  else .error .noSuchWidth

/-- The context in which a table word is read when none is given: the frame state after reset for an event word, and
for a control vector the one in which its most significant set bit selects its operation. Log entry 11. -/
def TableWord.context (p : Params) : TableWord → Context
  | .event _ => { run := .running, pend := .none, state := .seekStart, cfg := p, check := none }
  | .control cv =>
    if cv.getLsbD 2 then { run := .idle, pend := .none, state := .seekStart, cfg := p, check := none }
    else if cv.getLsbD 1 then { run := .running, pend := .pkt, state := .seekStart, cfg := p, check := none }
    else { run := .running, pend := .err, state := .seekStart, cfg := p, check := none }

/-- The operation of a table word in that context (no operation for `0000` and for a refused word). -/
def decodeTableWord (nbits w : Nat) : Option Instr :=
  match tableWord nbits w with
  | .ok tw => (decode (tw.context Config.hardware) tw).toOption
  | .error _ => none

end Sys2Proof
end

