-- ==== Sys2Proof/Machine/State.lean ====
section
/-! DEFINITION. The state of the block (rule R20), and why a step can stop.

The first ten fields are the spec's state; the last four are the model's own (INVENTORY.md, '## State'). -/

namespace Sys2Proof.Machine

/-- The packet buffer's contents (R26): (index, byte) pairs with indices strictly rising. An index that is not listed holds
no value, which is what every entry holds after reset (R36). -/
abbrev Memory := List Host.Cell

/-- The error record `erec` (R30). -/
structure ErrRec where
  e_kind : ErrKind
  e_cause : ErrCause
  e_state : FrameState
  e_addr : Byte
  e_len : Byte
  e_count : Byte
  e_got : Byte
  e_exp : Byte
  e_tcode : Byte
  deriving DecidableEq, Repr

/-- A packet: "`Packet{MessageType, Payload}`" (R33). -/
structure Packet where
  messageType : Byte
  payload : List Byte
  deriving DecidableEq, Repr

/-- One result a consumer has taken (R59, R151, R152): a packet with its address beside it, or an error record. -/
inductive Delivery where
  | packet (address : Byte) (p : Packet)
  | error (r : ErrRec)
  deriving DecidableEq, Repr

/-- What ENC returns (R190): the frame's bytes, or an error with the length of the payload that did not fit (R191). -/
inductive EncResult where
  | frame (bytes : List Byte)
  | error (kind : ErrKind) (payloadLen : Nat)
  deriving DecidableEq, Repr

/-- What the outside drives on the block's input pins in one step (R50): the control vector (R85) and an offered event,
whose word means something only while `rx_valid` is set (R226). -/
structure Sample where
  cv : ControlVector
  rx_valid : Bool
  ew : EventWord
  deriving DecidableEq, Repr

structure State where
  /-- Lifecycle register (R21). -/
  run : RunState
  /-- Frame state register (R22). -/
  state : FrameState
  /-- Address of the attempted frame (R23). -/
  addr_r : Byte
  /-- Accepted Length (R24). -/
  len_r : Byte
  /-- Message bytes still to be read (R25). -/
  rem : Byte
  /-- Packet buffer (R26). -/
  mbuf : Memory
  /-- Pending-output register (R28). -/
  pend : Pending
  /-- Error record (R30). -/
  erec : ErrRec
  /-- Frame log, RESCAN only (R31). -/
  fbuf : List Byte
  /-- Replay queue, RESCAN only, head first (R31). -/
  rpl : List Byte
  /-- The model's own: the parameters of this run, which no operation writes (R5, R231; log entry 1). -/
  cfg : Params
  /-- The model's own: what the outside drives in each coming step, next one first (log entry 5). -/
  inputs : List Sample
  /-- The model's own: every result taken so far, oldest first (R59; log entry 6). -/
  delivered : List Delivery
  /-- The model's own: the result of the last call of ENC (log entry 7). -/
  encOut : Option EncResult
  deriving DecidableEq, Repr

/-- Why the machine stops with a fault. No reachable state meets one (R26, R55). -/
inductive Fault where
  /-- Raised by CHK.PASS, CHK.FAIL (through `CHK`) and PKT.ACCEPT: a packet buffer entry that holds no value is read
  (R26, D38). Safe: the model stops. -/
  | mbufNoValue
  /-- Raised by MSG.STORE: the write index lies outside the packet buffer (R55 says no write can). Safe: the model stops. -/
  | mbufOutside
  deriving DecidableEq, Repr

/-- Why a step has no meaning. -/
inductive Refusal where
  /-- Raised by an arm of `exec` whose instruction has no meaning yet. Safe: the model stops. -/
  | notModelled (mnemonic : String)
  /-- Raised by RSV.KIND: an event of the reserved kind 3 (R143). Safe: the model stops, as the rule demands. -/
  | reservedEventKind
  deriving DecidableEq, Repr

/-- The error record with every field 0 (R36). -/
def ErrRec.zero : ErrRec :=
  { e_kind := .none, e_cause := .range, e_state := .seekStart, e_addr := 0, e_len := 0, e_count := 0, e_got := 0, e_exp := 0, e_tcode := 0 }

/-- The block right after reset (R36), with the parameters of this hardware (R5), nothing driven on its pins, nothing
delivered and ENC not called. -/
def State.reset : State :=
  { run := .idle
    state := .seekStart
    addr_r := 0
    len_r := 0
    rem := 0
    mbuf := []
    pend := .none
    erec := ErrRec.zero
    fbuf := []
    rpl := []
    cfg := Config.hardware
    inputs := []
    delivered := []
    encOut := none }

end Sys2Proof.Machine
end

