-- ==== Sys2Proof/Machine/Ops.lean ====
section
/-! DEFINITION. The named operations over the packet buffer and the registers, the two output primitives of 10_state.md
section 3, and the frame error's entry and return (60_exceptions.md section 3). -/

namespace Sys2Proof.Machine

/-- The outcome of an operation of the block. -/
abbrev Result := Host.Outcome State Fault Refusal

/-! ### The packet buffer -/

/-- `mbuf[i]`: the entry's byte, or no value where nothing has written it (R26). -/
def Memory.read : Memory → Nat → Option Byte
  | [], _ => none
  | (j, b) :: m, i => if i = j then some b else Memory.read m i

/-- `mbuf[i .. i + n)`: no value if one of the entries holds none. -/
def Memory.readRange (m : Memory) : Nat → Nat → Option (List Byte)
  | _, 0 => some []
  | i, n + 1 =>
    match Memory.read m i with
    | none => none
    | some b =>
      match Memory.readRange m (i + 1) n with
      | none => none
      | some bs => some (b :: bs)

/-- `mbuf[i] <- b`, keeping the indices strictly rising. -/
def Memory.write : Memory → Nat → Byte → Memory
  | [], i, b => [(i, b)]
  | (j, c) :: m, i, b =>
    if i < j then (i, b) :: (j, c) :: m
    else if i = j then (i, b) :: m
    else (j, c) :: Memory.write m i b

/-- Every index listed is above `i`, and they rise strictly. -/
def Memory.risingAfter : Nat → Memory → Bool
  | _, [] => true
  | i, (j, _) :: m => decide (i < j) && Memory.risingAfter j m

/-- The canonical form: indices strictly rising. (No entry equals what an unlisted index reads as, since that is no value.) -/
def Memory.wf : Memory → Bool
  | [] => true
  | (j, _) :: m => Memory.risingAfter j m

/-- Every index listed lies in the buffer (R55). -/
def Memory.within (n : Nat) (m : Memory) : Bool := m.all fun c => decide (c.1 < n)

/-! ### The Message of the current frame -/

/-- The write index, and the count of Message bytes received: `len_r - rem` (R27, R30). -/
def State.received (s : State) : Byte := s.len_r - s.rem

/-- The operand `mbuf[0 .. len_r)` of `CHK` (R130). -/
def State.message (s : State) : Option (List Byte) := s.mbuf.readRange 0 s.len_r.toNat

/-! ### The RESCAN frame log and replay queue (46_resync_rescan.md) -/

/-- The "if RESYNC_MODE = RESCAN" test of the operation rules (R170). -/
def State.rescans (s : State) : Bool := s.cfg.resync == .rescan

/-- In RESCAN mode: `fbuf <- fbuf ++ [b]` (R171). -/
def State.logByte (b : Byte) (s : State) : State :=
  { s with fbuf := if s.rescans then s.fbuf ++ [b] else s.fbuf }

/-- In RESCAN mode: `fbuf <- []` (R171). -/
def State.clearLog (s : State) : State :=
  { s with fbuf := if s.rescans then [] else s.fbuf }

/-- In RESCAN mode: `rpl <- fbuf ++ rpl; fbuf <- []` (R172). -/
def State.queueReplay (s : State) : State :=
  { s with
    rpl := if s.rescans then s.fbuf ++ s.rpl else s.rpl
    fbuf := if s.rescans then [] else s.fbuf }

/-! ### Output primitives, error entry and error return -/

/-- `emit_packet()` (R33). -/
def State.emitPacket (s : State) : State := { s with pend := .pkt }

/-- Taking a frame error (R204): `emit_error` latches the record and sets `pend` (R34), and `state` returns to
SEEK_START. -/
def State.raiseError (r : ErrRec) (s : State) : State :=
  { s with erec := r, pend := .err, state := .seekStart }

/-- The return from a frame error (R205): the error consumer takes the record, and `pend` becomes NONE. -/
def State.returnFromError (s : State) : State :=
  { s with delivered := s.delivered ++ [.error s.erec], pend := .none }

/-- The packet consumer takes a packet, and `pend` becomes NONE (R151). -/
def State.deliverPacket (p : Packet) (s : State) : State :=
  { s with delivered := s.delivered ++ [.packet s.addr_r p], pend := .none }

/-- The packet the block holds: MessageType = `mbuf[0]`, Payload = `mbuf[1 .. len_r)` (R33). -/
def State.packet (s : State) : Option Packet :=
  match s.mbuf.read 0 with
  | none => none
  | some t =>
    match s.mbuf.readRange 1 (s.len_r.toNat - 1) with
    | none => none
    | some p => some { messageType := t, payload := p }

/-! ### The environment's side -/

/-- No pin driven: no control bit set and no event offered (log entry 5). -/
def Sample.none : Sample := { cv := 0, rx_valid := false, ew := 0 }

/-- The pins of the coming step. -/
def State.sample (s : State) : Sample :=
  match s.inputs with
  | [] => Sample.none
  | x :: _ => x

/-- The pins of the coming step are gone; nothing else changes. -/
def State.pastSample (s : State) : State := { s with inputs := s.inputs.tail }

end Sys2Proof.Machine
end

