-- ==== Sys2Proof/Machine/Flags.lean ====
section
/-! DEFINITION. The block has no flags ("flags written: none" in every operation rule). What takes their place are the codes
of its registers, the status levels and the output ports (rules R29, R50, R86 to R88), each a function of the registered
state alone (R232). A data output that means nothing while its valid is 0 has no value then (93_implementation_defined.md
section 3; log entry 14). -/

namespace Sys2Proof

/-- The encoding of `state` (R22), and of `e_state` (R88). -/
def FrameState.code : FrameState → BitVec 3
  | .seekStart => 0
  | .readAddress => 1
  | .readLength => 2
  | .readMessage => 3
  | .readChecksum => 4

/-- The encoding of `run` (R21). -/
def RunState.code : RunState → BitVec 2
  | .idle => 0
  | .running => 1
  | .terminated => 2

/-- The encoding of `pend` (R28). -/
def Pending.code : Pending → BitVec 2
  | .none => 0
  | .pkt => 1
  | .err => 2

/-- The error kind codes (R86). -/
def ErrKind.code : ErrKind → BitVec 3
  | .none => 0
  | .startNotFound => 1
  | .length => 2
  | .checksumMismatch => 3
  | .transportError => 4
  | .frameTooLarge => 5

/-- The LENGTH cause codes (R87). -/
def ErrCause.code : ErrCause → BitVec 2
  | .range => 0
  | .truncated => 1

end Sys2Proof

namespace Sys2Proof.Machine

/-! ### Input readiness and the status outputs -/

/-- `rx_ready` (R150). -/
def State.rx_ready (s : State) : Bool :=
  s.run == .running && s.pend == .none && (s.cfg.resync == .cursor || s.rpl.isEmpty)

/-- `st_run` (R29). -/
def State.st_run (s : State) : BitVec 2 := s.run.code

/-- `st_state` (R29). -/
def State.st_state (s : State) : BitVec 3 := s.state.code

/-- `st_pend` (R29). -/
def State.st_pend (s : State) : BitVec 2 := s.pend.code

/-! ### The packet port (R50, R151) -/

def State.pkt_valid (s : State) : Bool := s.pend == .pkt

def State.pkt_addr (s : State) : Option Byte := if s.pkt_valid then some s.addr_r else none

def State.pkt_type (s : State) : Option Byte := if s.pkt_valid then s.mbuf.read 0 else none

def State.pkt_plen (s : State) : Option Byte := if s.pkt_valid then some (s.len_r - 1) else none

/-- `pkt_payload[i]`, meaningful only for i < `pkt_plen`. -/
def State.pkt_payload (s : State) (i : Nat) : Option Byte :=
  if s.pkt_valid && decide (i < (s.len_r - 1).toNat) then s.mbuf.read (i + 1) else none

/-! ### The error port (R50, R152) -/

def State.err_valid (s : State) : Bool := s.pend == .err

def State.err_kind (s : State) : Option (BitVec 3) := if s.err_valid then some s.erec.e_kind.code else none

def State.err_cause (s : State) : Option (BitVec 2) := if s.err_valid then some s.erec.e_cause.code else none

def State.err_state (s : State) : Option (BitVec 3) := if s.err_valid then some s.erec.e_state.code else none

def State.err_addr (s : State) : Option Byte := if s.err_valid then some s.erec.e_addr else none

def State.err_len (s : State) : Option Byte := if s.err_valid then some s.erec.e_len else none

def State.err_count (s : State) : Option Byte := if s.err_valid then some s.erec.e_count else none

def State.err_got (s : State) : Option Byte := if s.err_valid then some s.erec.e_got else none

def State.err_exp (s : State) : Option Byte := if s.err_valid then some s.erec.e_exp else none

def State.err_tcode (s : State) : Option Byte := if s.err_valid then some s.erec.e_tcode else none

end Sys2Proof.Machine
end

