-- ==== Sys2Proof/Machine/Operands.lean ====
section
/-! DEFINITION. What an operation works on: the checksum of the current frame, the context that selects it (R85, R89) and its
enabling condition (the state, condition and enable columns of spec/opcode_table.json). -/

namespace Sys2Proof.Machine

/-! ### The checksum function (43_checksum.md) -/

/-- The sum of a list of bytes as an integer (R8). -/
def sumBytes : List Byte → Nat
  | [] => 0
  | b :: bs => b.toNat + sumBytes bs

/-- `NOT8(v) = 0xFF - v` (R8). -/
def not8 (v : Byte) : Byte := 0xFF - v

/-- `CHK_REF` (R131). -/
def chkRef (_a l : Byte) (m : List Byte) : Byte := not8 (BitVec.ofNat 8 (l.toNat + sumBytes m))

/-- Any byte but 0x02, given by one of 255 numbers. -/
def byteExceptTwo (k : Fin 255) : Byte := if k.val < 2 then BitVec.ofNat 8 k.val else BitVec.ofNat 8 (k.val + 1)

/-- The device's `CHK`: any total function (R130) within the constraints K1 and K2 (R134). Log entry 3. -/
def chkDevice (a l : Byte) (m : List Byte) : Byte :=
  if a = 0x02 ∧ l = 0x04 ∧ m = [0x1B, 0x01, 0x01, 0x01] then 0xDD
  else if a = 0x02 ∧ l = 0x04 ∧ m = [0x1B, 0x01, 0xDD, 0xFF] then byteExceptTwo Config.chkFreeK2
  else Config.chkFree a l m

/-- The parameter `CHK` (R130). -/
def chk (f : ChkFunction) (a l : Byte) (m : List Byte) : Byte :=
  match f with
  | .device => chkDevice a l m
  | .reference => chkRef a l m

/-- `CHK(addr_r, len_r, mbuf[0 .. len_r))`; no value where one of the entries holds none. -/
def State.checksum (s : State) : Option Byte :=
  match s.message with
  | none => none
  | some m => some (chk s.cfg.chk s.addr_r s.len_r m)

/-! ### Selection and enabling -/

/-- What R85 and R89 select by. -/
def State.context (s : State) : Context :=
  { run := s.run, pend := s.pend, state := s.state, cfg := s.cfg, check := s.checksum }

/-- The enabling condition of REPLAY.BYTE, `rst` apart (R173). -/
def State.replayReady (s : State) : Bool :=
  s.cfg.resync == .rescan && s.run == .running && s.pend == .none && !s.rpl.isEmpty

/-- The format column of spec/opcode_table.json. -/
inductive Format where
  | evt10
  | ctrl4
  | internal
  | func
  deriving DecidableEq, Repr

def formatOf : Instr → Format
  | .seekSkip _ => .evt10
  | .seekSync => .evt10
  | .seekEos _ => .evt10
  | .addrLatch _ => .evt10
  | .lenAccept _ => .evt10
  | .lenReject _ => .evt10
  | .msgStore _ => .evt10
  | .chkPass _ => .evt10
  | .chkFail _ => .evt10
  | .frameEos _ => .evt10
  | .transportError _ => .evt10
  | .rsvKind _ => .evt10
  | .reset _ _ _ => .ctrl4
  | .start _ _ => .ctrl4
  | .pktAccept _ _ => .ctrl4
  | .errAccept _ _ => .ctrl4
  | .replayByte => .internal
  | .enc _ _ _ => .func

/-- The registers' part of an operation's enabling condition: input readiness for an event operation (R150), the row's own
condition for the others. -/
def enabled (i : Instr) (s : State) : Bool :=
  match formatOf i with
  | .evt10 => s.rx_ready && i.selectedIn s.context
  | .ctrl4 => i.selectedIn s.context
  | .internal => s.replayReady
  | .func => true

/-- The whole enabling condition at the pins `x`: the registers' part, and the row's word on the pins with `rst` = 0 for every
operation but RESET. ENC is no step of the block (R89). -/
def enabledAt (x : Sample) (i : Instr) (s : State) : Bool :=
  enabled i s &&
    match formatOf i with
    | .evt10 => !x.cv.getLsbD 3 && x.rx_valid && encode i == some (.event x.ew)
    | .ctrl4 => encode i == some (.control x.cv)
    | .internal => !x.cv.getLsbD 3
    | .func => false

/-- An operation whose enabling condition does not hold changes nothing (R85, R90, R213; log entry 9). -/
def whenEnabled (i : Instr) (s : State) (r : Result) : Result :=
  if enabled i s then r else .next s

end Sys2Proof.Machine
end

