-- ==== Sys2Proof/Machine/Encoder.lean ====
section
/-! DEFINITION. The reference frame encoder of 47_encoder.md: a function of the parameters and its operands. -/

namespace Sys2Proof.Machine

/-- `ENC(a, {t, p})` (R190, R191). -/
def encFrame (cfg : Params) (a t : Byte) (p : List Byte) : EncResult :=
  if cfg.maxLen.val < p.length + 1 then .error .frameTooLarge p.length
  else
    let l : Byte := BitVec.ofNat 8 (p.length + 1)
    .frame ([START_BYTE, a, l] ++ (t :: p) ++ [chk cfg.chk a l (t :: p)])

/-- ENC (R190): the result goes to the model's own field; no register of the block is read or written (R193). -/
def execEnc (a t : Byte) (p : List Byte) (s : State) : Result :=
  .next { s with encOut := some (encFrame s.cfg a t p) }

end Sys2Proof.Machine
end

