-- ==== Sys2Proof/Machine/Output.lean ====
section
/-! DEFINITION. Output delivery and start: the operations of 45_output.md. -/

namespace Sys2Proof.Machine

/-- PKT.ACCEPT's effect (R151); where an entry of the packet holds no value, a fault (D38). -/
def pktAcceptEffect (s : State) : Result :=
  match s.packet with
  | none => .fault .mbufNoValue
  | some p => .next (s.deliverPacket p)

/-- ERR.ACCEPT's effect (R152). -/
def errAcceptEffect (s : State) : Result := .next s.returnFromError

/-- START's effect (R154). -/
def startEffect (s : State) : Result := .next { s with run := .running }

/-- PKT.ACCEPT (R151). -/
def execPktAccept (start errReady : Bool) (s : State) : Result :=
  whenEnabled (.pktAccept start errReady) s (pktAcceptEffect s)

/-- ERR.ACCEPT (R152). -/
def execErrAccept (start pktReady : Bool) (s : State) : Result :=
  whenEnabled (.errAccept start pktReady) s (errAcceptEffect s)

/-- START (R154). -/
def execStart (pktReady errReady : Bool) (s : State) : Result :=
  whenEnabled (.start pktReady errReady) s (startEffect s)

end Sys2Proof.Machine
end

