-- ==== Sys2Proof/Machine/Checksum.lean ====
section
/-! DEFINITION. Checksum verifier: the operations of 43_checksum.md. -/

namespace Sys2Proof.Machine

/-- CHK.PASS's effect (R132). -/
def chkPassEffect (_b : Byte) (s : State) : Result :=
  .next { s.clearLog.emitPacket with state := .seekStart }

/-- CHK.FAIL's effect (R133): c is `CHK(addr_r, len_r, mbuf[0 .. len_r))`; where an entry holds no value, a fault (D38). -/
def chkFailEffect (b : Byte) (s : State) : Result :=
  match s.checksum with
  | none => .fault .mbufNoValue
  | some c =>
    .next ((s.logByte b).queueReplay.raiseError
      { ErrRec.zero with
        e_kind := .checksumMismatch
        e_state := .readChecksum
        e_addr := s.addr_r
        e_len := s.len_r
        e_count := s.len_r
        e_got := b
        e_exp := c })

/-- CHK.PASS (R132). -/
def execChkPass (b : Byte) (s : State) : Result := whenEnabled (.chkPass b) s (chkPassEffect b s)

/-- CHK.FAIL (R133). -/
def execChkFail (b : Byte) (s : State) : Result := whenEnabled (.chkFail b) s (chkFailEffect b s)

end Sys2Proof.Machine
end

