-- ==== Sys2Proof/Machine/Header.lean ====
section
/-! DEFINITION. Header and length validator: the operations of 41_header.md. -/

namespace Sys2Proof.Machine

/-- ADDR.LATCH's effect (R110). -/
def addrLatchEffect (b : Byte) (s : State) : Result :=
  .next { s.logByte b with addr_r := b, state := .readLength }

/-- LEN.ACCEPT's effect (R111). -/
def lenAcceptEffect (b : Byte) (s : State) : Result :=
  .next { s.logByte b with len_r := b, rem := b, state := .readMessage }

/-- LEN.REJECT's effect (R112): the failing byte is logged first, then the log goes to the replay queue (R172). DESIGN CHOICE:
with `MAX_LEN` 1 to 3 it rejects the Length 4 of Scenarios B and C, so the second result is LENGTH/RANGE where R178 says, "for
every `MAX_LEN`", the packet (RESCAN mode, Scenarios B and C) or says START_NOT_FOUND (CURSOR mode, Scenario B: START_NOT_FOUND
is the third result there); the model follows R112 (log entry 23). -/
def lenRejectEffect (b : Byte) (s : State) : Result :=
  .next ((s.logByte b).queueReplay.raiseError
    { ErrRec.zero with e_kind := .length, e_cause := .range, e_state := .readLength, e_addr := s.addr_r, e_len := b })

/-- ADDR.LATCH (R110). -/
def execAddrLatch (b : Byte) (s : State) : Result := whenEnabled (.addrLatch b) s (addrLatchEffect b s)

/-- LEN.ACCEPT (R111). -/
def execLenAccept (b : Byte) (s : State) : Result := whenEnabled (.lenAccept b) s (lenAcceptEffect b s)

/-- LEN.REJECT (R112). -/
def execLenReject (b : Byte) (s : State) : Result := whenEnabled (.lenReject b) s (lenRejectEffect b s)

end Sys2Proof.Machine
end

