-- ==== Sys2Proof/Machine/Message.lean ====
section
/-! DEFINITION. Packet assembler: the operation of 42_message.md. -/

namespace Sys2Proof.Machine

/-- MSG.STORE's effect (R120). An index outside the buffer is a fault (R55, log entry 17). -/
def msgStoreEffect (b : Byte) (s : State) : Result :=
  if s.received.toNat < s.cfg.maxLen.val then
    .next { s.logByte b with
      mbuf := s.mbuf.write s.received.toNat b
      rem := s.rem - 1
      state := if s.rem - 1 = 0 then .readChecksum else .readMessage }
  else .fault .mbufOutside

/-- MSG.STORE (R120). -/
def execMsgStore (b : Byte) (s : State) : Result := whenEnabled (.msgStore b) s (msgStoreEffect b s)

end Sys2Proof.Machine
end

