-- ==== Sys2Proof/Machine/Seek.lean ====
section
/-! DEFINITION. Byte synchronizer and start-byte detector: the operations of 40_sync.md. An effect is the rule's pseudocode;
the meaning adds the enabling condition. -/

namespace Sys2Proof.Machine

/-- SEEK.SKIP's effect (R100). -/
def seekSkipEffect (_b : Byte) (s : State) : Result := .next s

/-- SEEK.SYNC's effect (R101). -/
def seekSyncEffect (s : State) : Result :=
  .next { s.clearLog with addr_r := 0, len_r := 0, rem := 0, state := .readAddress }

/-- SEEK.EOS's effect (R102). -/
def seekEosEffect (_x : Byte) (s : State) : Result :=
  .next (s.raiseError { ErrRec.zero with e_kind := .startNotFound })

/-- SEEK.SKIP (R100). -/
def execSeekSkip (b : Byte) (s : State) : Result := whenEnabled (.seekSkip b) s (seekSkipEffect b s)

/-- SEEK.SYNC (R101). -/
def execSeekSync (s : State) : Result := whenEnabled .seekSync s (seekSyncEffect s)

/-- SEEK.EOS (R102). -/
def execSeekEos (x : Byte) (s : State) : Result := whenEnabled (.seekEos x) s (seekEosEffect x s)

end Sys2Proof.Machine
end

