-- ==== Sys2Proof/Machine/Replay.lean ====
section
/-! DEFINITION. RESCAN replay: the operation of 46_resync_rescan.md. -/

namespace Sys2Proof.Machine

/-- The effect of the operation that BYTE(b) selects in the current frame state (R89, BYTE rows). DESIGN CHOICE: a replayed
0xFF met inside a new attempted frame is a byte of that frame (R101 case c, R173), where R177 (b) says that every 0xFF of a
failed frame is re-examined in SEEK_START; the model follows R173 (log entry 24). -/
def byteEffect (b : Byte) (s : State) : Result :=
  match s.state with
  | .seekStart => if b = START_BYTE then seekSyncEffect s else seekSkipEffect b s
  | .readAddress => addrLatchEffect b s
  | .readLength => if 1 ≤ b.toNat ∧ b.toNat ≤ s.cfg.maxLen.val then lenAcceptEffect b s else lenRejectEffect b s
  | .readMessage => msgStoreEffect b s
  | .readChecksum => if s.checksum = some b then chkPassEffect b s else chkFailEffect b s

/-- REPLAY.BYTE's effect (R173): the head byte leaves the queue and performs its operation in the same step. -/
def replayByteEffect (s : State) : Result :=
  match s.rpl with
  | [] => .next s
  | b :: rest => byteEffect b { s with rpl := rest }

/-- REPLAY.BYTE (R173). -/
def execReplayByte (s : State) : Result := whenEnabled .replayByte s (replayByteEffect s)

end Sys2Proof.Machine
end

