-- ==== Sys2Proof/Machine/Reset.lean ====
section
/-! DEFINITION. Reset: the operation of 70_reset_and_hazards.md section 1. -/

namespace Sys2Proof.Machine

/-- RESET (R220): every register of R20 takes its value of R36. The parameters stay (R220 case d); so do the model's own
fields, which belong to the outside. -/
def execReset (_start _pktReady _errReady : Bool) (s : State) : Result :=
  .next
    { s with
      run := .idle
      state := .seekStart
      addr_r := 0
      len_r := 0
      rem := 0
      mbuf := []
      pend := .none
      erec := ErrRec.zero
      fbuf := []
      rpl := [] }

end Sys2Proof.Machine
end

