-- ==== Sys2Proof/Machine/StreamEvents.lean ====
section
/-! DEFINITION. Stream end, transport error and the reserved event kind: the operations of 44_stream_events.md. -/

namespace Sys2Proof.Machine

/-- FRAME.EOS's effect (R140). -/
def frameEosEffect (_x : Byte) (s : State) : Result :=
  .next (s.queueReplay.raiseError
    { ErrRec.zero with
      e_kind := .length
      e_cause := .truncated
      e_state := s.state
      e_addr := s.addr_r
      e_len := s.len_r
      e_count := s.received })

/-- The record TRANSPORT.ERROR latches (R142): in SEEK_START no frame is open and its fields are 0. -/
def transportRecord (c : Byte) (s : State) : ErrRec :=
  if s.state = .seekStart then { ErrRec.zero with e_kind := .transportError, e_tcode := c }
  else
    { ErrRec.zero with
      e_kind := .transportError
      e_state := s.state
      e_addr := s.addr_r
      e_len := s.len_r
      e_count := s.received
      e_tcode := c }

/-- TRANSPORT.ERROR's effect (R142). -/
def transportErrorEffect (c : Byte) (s : State) : Result :=
  .next { s.clearLog.raiseError (transportRecord c s) with run := .terminated }

/-- FRAME.EOS (R140). -/
def execFrameEos (x : Byte) (s : State) : Result := whenEnabled (.frameEos x) s (frameEosEffect x s)

/-- TRANSPORT.ERROR (R142). -/
def execTransportError (c : Byte) (s : State) : Result := whenEnabled (.transportError c) s (transportErrorEffect c s)

/-- RSV.KIND (R143): "A model must refuse the step", in any state. The refusal ends the run, which is the mark the rule asks
to be kept. -/
def execRsvKind (_x : Byte) (_s : State) : Result := .refused .reservedEventKind

end Sys2Proof.Machine
end

