-- ==== Sys2Proof/Machine/Dispatch.lean ====
section
/-! DEFINITION. One meaning for each operation of spec/opcode_table.json. -/

namespace Sys2Proof.Machine

def exec (i : Instr) (s : State) : Host.Outcome State Fault Refusal :=
  match i with
  | .seekSkip b => Sys2Proof.Machine.execSeekSkip b s
  | .seekSync => Sys2Proof.Machine.execSeekSync s
  | .seekEos x => Sys2Proof.Machine.execSeekEos x s
  | .addrLatch b => Sys2Proof.Machine.execAddrLatch b s
  | .lenAccept b => Sys2Proof.Machine.execLenAccept b s
  | .lenReject b => Sys2Proof.Machine.execLenReject b s
  | .msgStore b => Sys2Proof.Machine.execMsgStore b s
  | .chkPass b => Sys2Proof.Machine.execChkPass b s
  | .chkFail b => Sys2Proof.Machine.execChkFail b s
  | .frameEos x => Sys2Proof.Machine.execFrameEos x s
  | .transportError c => Sys2Proof.Machine.execTransportError c s
  | .rsvKind x => Sys2Proof.Machine.execRsvKind x s
  | .reset st pr er => Sys2Proof.Machine.execReset st pr er s
  | .start pr er => Sys2Proof.Machine.execStart pr er s
  | .pktAccept st er => Sys2Proof.Machine.execPktAccept st er s
  | .errAccept st pr => Sys2Proof.Machine.execErrAccept st pr s
  | .replayByte => Sys2Proof.Machine.execReplayByte s
  | .enc a t p => Sys2Proof.Machine.execEnc a t p s

end Sys2Proof.Machine
end

