-- ==== Sys2Proof/Machine/Select.lean ====
section
/-! DEFINITION. What takes the place of an instruction fetch: the operation the pins and the registers select in a step
(rules R89, R232), and how a word of the opcode table is put on the pins. -/

namespace Sys2Proof.Machine

/-- The operation of a step at the pins `x` (R232): RESET, START, PKT.ACCEPT, ERR.ACCEPT by the control vector, else
REPLAY.BYTE, else the offered event's operation if the input side is ready; none if nothing is enabled. -/
def select (x : Sample) (s : State) : Option Instr :=
  match decodeControl s.context x.cv with
  | .ok i => some i
  | .error _ =>
    if s.replayReady then some .replayByte
    else if x.rx_valid && s.rx_ready then some (decodeEvent s.context x.ew)
    else none

/-- Pins that offer an event and no control input. -/
def Sample.ofEvent (ew : EventWord) : Sample := { cv := 0, rx_valid := true, ew := ew }

/-- Pins that offer BYTE(b) (R80). -/
def Sample.ofByte (b : Byte) : Sample := Sample.ofEvent (eventWord 0 b)

/-- Pins on which only the control vector is driven. -/
def Sample.ofControl (cv : ControlVector) : Sample := { cv := cv, rx_valid := false, ew := 0 }

/-- Pins on which both consumers accept and no event is offered. -/
def Sample.accept : Sample := Sample.ofControl (controlVector false false true true)

/-- The pins that show a word of the opcode table. -/
def Sample.ofTableWord : TableWord → Sample
  | .event ew => Sample.ofEvent ew
  | .control cv => Sample.ofControl cv

/-- A packet of one byte 0 is pending, unless a packet already is. -/
def State.withPacketPending (s : State) : State :=
  if s.pend = .pkt then s
  else
    { s with
      run := if s.run = .idle then .running else s.run
      pend := .pkt
      state := .seekStart
      len_r := 1
      rem := 0
      mbuf := s.mbuf.write 0 0 }

/-- The error START_NOT_FOUND is pending, unless an error already is. -/
def State.withErrorPending (s : State) : State :=
  if s.pend = .err then s
  else
    { s with
      run := if s.run = .idle then .running else s.run
      pend := .err
      state := .seekStart
      erec := { ErrRec.zero with e_kind := .startNotFound } }

/-- The registers in the condition in which a word of the opcode table selects its operation as the table's decoder reads it
(log entry 11): for an event word RUNNING, SEEK_START, nothing pending and, in RESCAN mode, nothing to replay (R150); for a
control vector what the operation of its most significant set bit asks for (R85). -/
def State.readyFor (s : State) : TableWord → State
  | .event _ =>
    { s with
      run := .running
      pend := .none
      state := .seekStart
      rpl := if s.cfg.resync = .rescan then [] else s.rpl }
  | .control cv =>
    if cv.getLsbD 3 then s
    else if cv.getLsbD 2 then { s with run := .idle }
    else if cv.getLsbD 1 then s.withPacketPending
    else if cv.getLsbD 0 then s.withErrorPending
    else s

end Sys2Proof.Machine
end

