-- ==== Sys2Proof/Machine/Step.lean ====
section
/-! DEFINITION. One step of the block: one rising edge of `clk` (rule R232). -/

namespace Sys2Proof.Machine

/-- The pins are sampled, and the operation they and the registers select is performed; if none is, no register changes. -/
def step (s : State) : Host.Outcome State Fault Refusal :=
  match select s.sample s with
  | some i => exec i s.pastSample
  | none => .next s.pastSample

/-- The word is on the pins of the coming step, and the registers are such that it selects its operation (log entry 11). A
word the table's decoder refuses changes nothing. -/
def State.withFetchWord (s : State) (nbits w : Nat) : State :=
  match tableWord nbits w with
  | .ok tw => { s.readyFor tw with inputs := Sample.ofTableWord tw :: s.inputs }
  | .error _ => s

end Sys2Proof.Machine
end

