-- ==== Sys2Proof/Machine/Run.lean ====
section
/-! DEFINITION. A run on a finite input (rule R234, decision D36): the byte source holds a finite sequence of events, the
consumers accept every output, and the host applies RESET and then START once. -/

namespace Sys2Proof.Machine

/-- What the agents around the block have still to do: the host's control vectors and the source's events, next one first. -/
structure Environment where
  host : List ControlVector
  events : List EventWord
  deriving DecidableEq, Repr

/-- Before the first step: RESET and START are to come (R222), and every event. -/
def Environment.ofEvents (events : List EventWord) : Environment :=
  { host := [controlVector true false false false, controlVector false true false false], events := events }

/-- The pins of the coming edge: the host's next control vector, or, when it has none left, both consumers ready (log entry
25); and the source's next event, if it has one. -/
def Environment.pins (e : Environment) : Sample :=
  { cv := e.host.headD (controlVector false false true true)
    rx_valid := !e.events.isEmpty
    ew := e.events.headD 0 }

/-- The edge consumes the offered event: the operation it performs is an event operation (R150). -/
def Environment.eventTaken (e : Environment) (s : State) : Bool :=
  match select e.pins s with
  | some i => formatOf i == .evt10
  | none => false

/-- After an edge of the block in state `s`: an event that was not taken is offered again, and one that was never is (R226). -/
def Environment.past (e : Environment) (s : State) : Environment :=
  { host := e.host.tail, events := if e.eventTaken s then e.events.tail else e.events }

/-- The end of a run: "no operation of rule R232 is enabled, with all input events consumed or the block TERMINATED", once
the host has applied RESET and START. -/
def runEnded (e : Environment) (s : State) : Bool :=
  e.host.isEmpty && (select e.pins s).isNone && (e.events.isEmpty || s.run == .terminated)

/-- At most `n` edges, stopping at the end of the run. -/
def runFor : Nat → Environment → State → Host.Outcome (Environment × State) Fault Refusal
  | 0, e, s => .next (e, s)
  | n + 1, e, s =>
    if runEnded e s then .next (e, s)
    else
      match step { s with inputs := [e.pins] } with
      | .next t => runFor n (e.past s) t
      | .fault r => .fault r
      | .refused r => .refused r

/-- At most `n` edges of the run on `events`, from the registers of `s` with nothing delivered yet. -/
def runOf (n : Nat) (events : List EventWord) (s : State) : Host.Outcome (Environment × State) Fault Refusal :=
  runFor n (Environment.ofEvents events) { s with delivered := [] }

/-- The observation of a run (R234): the sequence of its deliveries, together with the final state. -/
structure Observation where
  deliveries : List Delivery
  final : State
  deriving DecidableEq, Repr

/-- The run on `events` from the registers of `s` ends, within `n` edges, with this observation; none if it has not ended by
then, or stops at a fault or a refusal. -/
def observe (n : Nat) (events : List EventWord) (s : State) : Option Observation :=
  match runOf n events s with
  | .next (e, t) => if runEnded e t then some { deliveries := t.delivered, final := t } else none
  | .fault _ => none
  | .refused _ => none

end Sys2Proof.Machine
end

