-- ==== Sys2Proof/Safety.lean ====
section
/-! DEFINITION. The terms the claims are stated in: what the packet buffer holds, when the input side is ready, and the
invariants of rule R35 with the facts that carry them from step to step. -/

namespace Sys2Proof.Machine

/-- R150's condition in its own words: the block is RUNNING, nothing is pending, and in RESCAN mode nothing is queued. -/
def State.takesInput (s : State) : Prop :=
  s.run = .running ∧ s.pend = .none ∧ (s.cfg.resync = .cursor ∨ s.rpl = [])

/-- `mbuf[0 .. len_r)` is `m`, entry by entry. -/
def State.holdsMessage (s : State) (m : List Byte) : Prop :=
  m.length = s.len_r.toNat ∧ ∀ i, i < m.length → s.mbuf.read i = m[i]?

/-- Entries 0 to n - 1 of the packet buffer hold values. -/
def Memory.written (m : Memory) (n : Nat) : Prop := ∀ i, i < n → (Memory.read m i).isSome

/-- The invariants (I-a) to (I-h) of R35 (I-g holds by the types), and what they rest on. -/
structure State.Inv (s : State) : Prop where
  /-- (I-a) -/
  idle_quiet : s.run = .idle → s.state = .seekStart ∧ s.pend = .none ∧ s.fbuf = [] ∧ s.rpl = []
  /-- (I-b) -/
  pending_seeks : s.pend ≠ .none → s.state = .seekStart
  /-- (I-c) -/
  terminated_quiet : s.run = .terminated → s.state = .seekStart ∧ s.fbuf = [] ∧ s.rpl = []
  /-- (I-d) -/
  message_range : s.state = .readMessage →
    1 ≤ s.rem.toNat ∧ s.rem.toNat ≤ s.len_r.toNat ∧ s.len_r.toNat ≤ s.cfg.maxLen.val
  /-- (I-e) -/
  checksum_range : s.state = .readChecksum → s.rem = 0 ∧ 1 ≤ s.len_r.toNat ∧ s.len_r.toNat ≤ s.cfg.maxLen.val
  /-- (I-f) -/
  packet_complete : s.pend = .pkt →
    s.rem = 0 ∧ 1 ≤ s.len_r.toNat ∧ s.len_r.toNat ≤ s.cfg.maxLen.val ∧ s.mbuf.written s.len_r.toNat
  /-- (I-h) -/
  log_bound : s.fbuf.length ≤ s.cfg.maxLen.val + 3
  /-- (I-h) -/
  queue_bound : s.rpl.length ≤ s.cfg.maxLen.val + 3
  /-- The fields SEEK.SYNC cleared and no operation has written yet (R140). -/
  address_open : s.state = .readAddress → s.addr_r = 0 ∧ s.len_r = 0 ∧ s.rem = 0
  length_open : s.state = .readLength → s.len_r = 0 ∧ s.rem = 0
  /-- The Message bytes received so far are in the buffer (R122). -/
  received_written : s.state = .readMessage ∨ s.state = .readChecksum → s.mbuf.written s.received.toNat
  /-- A pending error has one of the kinds 1 to 4 (93_implementation_defined.md section 2). -/
  error_kind : s.pend = .err → s.erec.e_kind ≠ .none ∧ s.erec.e_kind ≠ .frameTooLarge
  /-- The packet buffer is in its canonical form and inside its bounds (R55). -/
  buffer_wf : s.mbuf.wf = true
  buffer_within : s.mbuf.within s.cfg.maxLen.val = true
  /-- In CURSOR mode neither log nor queue exists (R31). -/
  cursor_empty : s.cfg.resync = .cursor → s.fbuf = [] ∧ s.rpl = []
  /-- In RESCAN mode the log holds the bytes consumed after the StartByte (R31, R171). -/
  log_seek : s.state = .seekStart → s.fbuf = []
  log_address : s.state = .readAddress → s.fbuf = []
  log_length : s.cfg.resync = .rescan → s.state = .readLength → s.fbuf.length = 1
  log_message : s.cfg.resync = .rescan → s.state = .readMessage → s.fbuf.length = 2 + s.received.toNat
  log_checksum : s.cfg.resync = .rescan → s.state = .readChecksum → s.fbuf.length = 2 + s.len_r.toNat
  /-- Inside a frame opened from the queue, log and queue together are shorter than the stretch they came from (R172). -/
  queue_open : s.state ≠ .seekStart → s.rpl ≠ [] → s.fbuf.length + s.rpl.length ≤ s.cfg.maxLen.val + 2

/-- `yes` in RESCAN mode, `no` in CURSOR mode: the "if RESYNC_MODE = RESCAN" lines of the operation rules (R170). -/
def State.ifRescan (s : State) (yes no : List Byte) : List Byte := if s.cfg.resync = .rescan then yes else no

/-- The spec's registers (R20), and the two fields of the model's own that an operation writes. -/
inductive Register where
  | run
  | state
  | addr_r
  | len_r
  | rem
  | mbuf
  | pend
  | erec
  | fbuf
  | rpl
  | delivered
  | encOut
  deriving DecidableEq, Repr

/-- The registers an operation's rule writes (the Writers of R21 to R31, and each operation's pseudocode). -/
def writes : Instr → List Register
  | .seekSkip _ => []
  | .seekSync => [.state, .addr_r, .len_r, .rem, .fbuf]
  | .seekEos _ => [.pend, .erec]
  | .addrLatch _ => [.state, .addr_r, .fbuf]
  | .lenAccept _ => [.state, .len_r, .rem, .fbuf]
  | .lenReject _ => [.state, .pend, .erec, .fbuf, .rpl]
  | .msgStore _ => [.state, .rem, .mbuf, .fbuf]
  | .chkPass _ => [.state, .pend, .fbuf]
  | .chkFail _ => [.state, .pend, .erec, .fbuf, .rpl]
  | .frameEos _ => [.state, .pend, .erec, .fbuf, .rpl]
  | .transportError _ => [.run, .state, .pend, .erec, .fbuf]
  | .rsvKind _ => []
  | .reset _ _ _ => [.run, .state, .addr_r, .len_r, .rem, .mbuf, .pend, .erec, .fbuf, .rpl]
  | .start _ _ => [.run]
  | .pktAccept _ _ => [.pend, .delivered]
  | .errAccept _ _ => [.pend, .delivered]
  | .replayByte => [.state, .addr_r, .len_r, .rem, .mbuf, .pend, .erec, .fbuf, .rpl]
  | .enc _ _ _ => [.encOut]

/-- The operation is RESET. -/
def isReset : Instr → Bool
  | .reset _ _ _ => true
  | _ => false

/-- The two states differ in nothing but the resync mode and the frame log: the one in CURSOR mode, the other in RESCAN mode
with nothing to replay. -/
def sameButMode (s r : State) : Prop :=
  s.cfg.resync = .cursor ∧
    ∃ log, r = { s with cfg := { s.cfg with resync := .rescan }, fbuf := log, rpl := [] }

/-- `n` steps of the block (Host/Core.lean), stopping at the first fault or refusal. -/
def steps (n : Nat) (s : State) : Result := Sys2Proof.core.run n s

end Sys2Proof.Machine
end

