-- ==== Sys2Proof/Certificates/Slice0/Obligations.lean ====
section
/-! DEFINITION. What is claimed of the block, from the numbered rules of spec/. An event word is written `k ++ b`: the kind in
bits 9 to 8, the data in bits 7 to 0 (R80). An equation `exec i s = .next t` names the whole next state, so it says what the
operation leaves unchanged too. -/

open Sys2Proof Sys2Proof.Machine

/-! ### The operations -/

/-- R100. -/
def Obligations.SeekSkipAbsorbsNoise : Prop :=
  ∀ (s : State) (b : Byte), s.takesInput → s.state = .seekStart → b ≠ START_BYTE →
    decodeEvent s.context (0#2 ++ b : EventWord) = .seekSkip b ∧ exec (.seekSkip b) s = .next s

/-- R101, its corner cases (b) and (c) included. -/
def Obligations.SeekSyncOpensFrame : Prop :=
  (∀ s : State, s.takesInput → s.state = .seekStart →
    decodeEvent s.context 0x0FF#10 = .seekSync ∧
    exec .seekSync s =
      .next { s with state := .readAddress, addr_r := 0, len_r := 0, rem := 0, fbuf := s.ifRescan [] s.fbuf }) ∧
  (∀ c : Context, c.state = .readAddress → decodeEvent c 0x0FF#10 = .addrLatch 0xFF) ∧
  (∀ c : Context, c.state ≠ .seekStart → decodeEvent c 0x0FF#10 ≠ .seekSync)

/-- R102: one START_NOT_FOUND for each EOS consumed in SEEK_START. -/
def Obligations.SeekEosReportsStartNotFound : Prop :=
  ∀ (s : State) (x : Byte), s.takesInput → s.state = .seekStart →
    decodeEvent s.context (1#2 ++ x : EventWord) = .seekEos x ∧
    exec (.seekEos x) s =
      .next { s with
        pend := .err
        erec := { e_kind := .startNotFound, e_cause := .range, e_state := .seekStart, e_addr := 0, e_len := 0, e_count := 0,
                  e_got := 0, e_exp := 0, e_tcode := 0 } }

/-- R110: every byte is an Address. -/
def Obligations.AddrLatchStoresAddress : Prop :=
  ∀ (s : State) (b : Byte), s.takesInput → s.state = .readAddress →
    decodeEvent s.context (0#2 ++ b : EventWord) = .addrLatch b ∧
    exec (.addrLatch b) s =
      .next { s with addr_r := b, state := .readLength, fbuf := s.ifRescan (s.fbuf ++ [b]) s.fbuf }

/-- R111: a Length of 1 to MAX_LEN, compared as an unsigned number. -/
def Obligations.LenAcceptStoresLength : Prop :=
  ∀ (s : State) (b : Byte), s.takesInput → s.state = .readLength → 1 ≤ b.toNat → b.toNat ≤ s.cfg.maxLen.val →
    decodeEvent s.context (0#2 ++ b : EventWord) = .lenAccept b ∧
    exec (.lenAccept b) s =
      .next { s with len_r := b, rem := b, state := .readMessage, fbuf := s.ifRescan (s.fbuf ++ [b]) s.fbuf }

/-- R112: a Length of 0 or above MAX_LEN. -/
def Obligations.LenRejectReportsRange : Prop :=
  ∀ (s : State) (b : Byte), s.takesInput → s.state = .readLength → (b = 0 ∨ s.cfg.maxLen.val < b.toNat) →
    decodeEvent s.context (0#2 ++ b : EventWord) = .lenReject b ∧
    exec (.lenReject b) s =
      .next { s with
        pend := .err
        state := .seekStart
        erec := { e_kind := .length, e_cause := .range, e_state := .readLength, e_addr := s.addr_r, e_len := b, e_count := 0,
                  e_got := 0, e_exp := 0, e_tcode := 0 }
        rpl := s.ifRescan ((s.fbuf ++ [b]) ++ s.rpl) s.rpl
        fbuf := s.ifRescan [] s.fbuf }

/-- R120: the byte goes to entry `len_r - rem`, and every other entry reads as before. The bounds are (I-d) of R35. -/
def Obligations.MsgStoreWritesNextEntry : Prop :=
  ∀ (s : State) (b : Byte), s.takesInput → s.state = .readMessage →
    1 ≤ s.rem.toNat → s.rem.toNat ≤ s.len_r.toNat → s.len_r.toNat ≤ s.cfg.maxLen.val →
    decodeEvent s.context (0#2 ++ b : EventWord) = .msgStore b ∧
    ∃ m : Memory,
      exec (.msgStore b) s =
        .next { s with
          mbuf := m
          rem := s.rem - 1
          state := if s.rem = 1 then .readChecksum else .readMessage
          fbuf := s.ifRescan (s.fbuf ++ [b]) s.fbuf } ∧
      m.read (s.len_r.toNat - s.rem.toNat) = some b ∧
      ∀ j, j ≠ s.len_r.toNat - s.rem.toNat → m.read j = s.mbuf.read j

/-- R132: the packet port shows the packet in the next state. -/
def Obligations.ChkPassPresentsPacket : Prop :=
  ∀ (s : State) (b ty : Byte) (p : List Byte), s.takesInput → s.state = .readChecksum → s.holdsMessage (ty :: p) →
    b = chk s.cfg.chk s.addr_r s.len_r (ty :: p) →
    decodeEvent s.context (0#2 ++ b : EventWord) = .chkPass b ∧
    exec (.chkPass b) s = .next { s with pend := .pkt, state := .seekStart, fbuf := s.ifRescan [] s.fbuf } ∧
    ∀ t, exec (.chkPass b) s = .next t →
      t.pkt_valid = true ∧ t.pkt_addr = some s.addr_r ∧ t.packet = some { messageType := ty, payload := p }

/-- R133: the record holds the received and the expected checksum. -/
def Obligations.ChkFailReportsMismatch : Prop :=
  ∀ (s : State) (b : Byte) (m : List Byte), s.takesInput → s.state = .readChecksum → s.holdsMessage m →
    b ≠ chk s.cfg.chk s.addr_r s.len_r m →
    decodeEvent s.context (0#2 ++ b : EventWord) = .chkFail b ∧
    exec (.chkFail b) s =
      .next { s with
        pend := .err
        state := .seekStart
        erec := { e_kind := .checksumMismatch, e_cause := .range, e_state := .readChecksum, e_addr := s.addr_r,
                  e_len := s.len_r, e_count := s.len_r, e_got := b, e_exp := chk s.cfg.chk s.addr_r s.len_r m, e_tcode := 0 }
        rpl := s.ifRescan ((s.fbuf ++ [b]) ++ s.rpl) s.rpl
        fbuf := s.ifRescan [] s.fbuf }

/-- R140's pseudocode, and what the record shows in each frame state. The rule's "0 < `e_count`" for READ_MESSAGE, which it
marks as derived, is left out: an EOS right after LEN.ACCEPT gives 0 (log entry 22). -/
def Obligations.FrameEosReportsTruncated : Prop :=
  ∀ (s : State) (x : Byte), s.takesInput → s.state ≠ .seekStart →
    decodeEvent s.context (1#2 ++ x : EventWord) = .frameEos x ∧
    exec (.frameEos x) s =
      .next { s with
        pend := .err
        state := .seekStart
        erec := { e_kind := .length, e_cause := .truncated, e_state := s.state, e_addr := s.addr_r, e_len := s.len_r,
                  e_count := s.len_r - s.rem, e_got := 0, e_exp := 0, e_tcode := 0 }
        rpl := s.ifRescan (s.fbuf ++ s.rpl) s.rpl
        fbuf := s.ifRescan [] s.fbuf } ∧
    (s.Inv →
      (s.state = .readAddress → s.addr_r = 0 ∧ s.len_r = 0 ∧ s.len_r - s.rem = 0) ∧
      (s.state = .readLength → s.len_r = 0 ∧ s.len_r - s.rem = 0) ∧
      (s.state = .readMessage → (s.len_r - s.rem).toNat < s.len_r.toNat) ∧
      (s.state = .readChecksum → s.len_r - s.rem = s.len_r))

/-- R142: the record's two forms, termination, and that only RESET leaves TERMINATED. -/
def Obligations.TransportErrorTerminates : Prop :=
  (∀ (s : State) (c : Byte), s.takesInput →
    decodeEvent s.context (2#2 ++ c : EventWord) = .transportError c ∧
    (s.state = .seekStart →
      exec (.transportError c) s =
        .next { s with
          run := .terminated
          pend := .err
          erec := { e_kind := .transportError, e_cause := .range, e_state := .seekStart, e_addr := 0, e_len := 0, e_count := 0,
                    e_got := 0, e_exp := 0, e_tcode := c }
          fbuf := s.ifRescan [] s.fbuf }) ∧
    (s.state ≠ .seekStart →
      exec (.transportError c) s =
        .next { s with
          run := .terminated
          pend := .err
          state := .seekStart
          erec := { e_kind := .transportError, e_cause := .range, e_state := s.state, e_addr := s.addr_r, e_len := s.len_r,
                    e_count := s.len_r - s.rem, e_got := 0, e_exp := 0, e_tcode := c }
          fbuf := s.ifRescan [] s.fbuf })) ∧
  (∀ s : State, s.run = .terminated → s.rx_ready = false) ∧
  (∀ (i : Instr) (s t : State), s.run = .terminated → isReset i = false → exec i s = .next t → t.run = .terminated)

/-- R143: "A model must refuse the step", in any state. -/
def Obligations.ReservedKindIsRefused : Prop :=
  ∀ (c : Context) (x : Byte),
    decodeEvent c (3#2 ++ x : EventWord) = .rsvKind x ∧ ∀ s : State, exec (.rsvKind x) s = .refused .reservedEventKind

/-- R151: what the port shows, what is delivered, and that nothing happens while no packet is pending. -/
def Obligations.PktAcceptDeliversPacket : Prop :=
  (∀ (s : State) (start errReady : Bool) (ty : Byte) (p : List Byte), s.pend = .pkt → s.holdsMessage (ty :: p) →
    s.pkt_addr = some s.addr_r ∧ s.pkt_type = some ty ∧ s.pkt_plen = some (s.len_r - 1) ∧
    (∀ i, i < p.length → s.pkt_payload i = p[i]?) ∧
    exec (.pktAccept start errReady) s =
      .next { s with pend := .none, delivered := s.delivered ++ [.packet s.addr_r { messageType := ty, payload := p }] }) ∧
  (∀ (s : State) (start errReady : Bool), s.pend ≠ .pkt →
    s.pkt_valid = false ∧ exec (.pktAccept start errReady) s = .next s)

/-- R152: the record is delivered and kept. -/
def Obligations.ErrAcceptDeliversRecord : Prop :=
  (∀ (s : State) (start pktReady : Bool), s.pend = .err →
    exec (.errAccept start pktReady) s = .next { s with pend := .none, delivered := s.delivered ++ [.error s.erec] }) ∧
  (∀ (s : State) (start pktReady : Bool), s.pend ≠ .err →
    s.err_valid = false ∧ exec (.errAccept start pktReady) s = .next s)

/-- R154. -/
def Obligations.StartLeavesIdle : Prop :=
  (∀ (s : State) (pktReady errReady : Bool), s.run = .idle →
    exec (.start pktReady errReady) s = .next { s with run := .running }) ∧
  (∀ (s : State) (pktReady errReady : Bool), s.run ≠ .idle → exec (.start pktReady errReady) s = .next s)

/-- R220 and the table of R36; `rx_ready`, `pkt_valid` and `err_valid` are 0 then. -/
def Obligations.ResetSetsEveryRegister : Prop :=
  ∀ (s : State) (start pktReady errReady : Bool), ∃ t,
    exec (.reset start pktReady errReady) s = .next t ∧
    t.run = .idle ∧ t.state = .seekStart ∧ t.addr_r = 0 ∧ t.len_r = 0 ∧ t.rem = 0 ∧ (∀ i, t.mbuf.read i = none) ∧
    t.pend = .none ∧
    t.erec = { e_kind := .none, e_cause := .range, e_state := .seekStart, e_addr := 0, e_len := 0, e_count := 0, e_got := 0,
               e_exp := 0, e_tcode := 0 } ∧
    t.fbuf = [] ∧ t.rpl = [] ∧ t.rx_ready = false ∧ t.pkt_valid = false ∧ t.err_valid = false ∧
    t.cfg = s.cfg ∧ t.inputs = s.inputs ∧ t.delivered = s.delivered ∧ t.encOut = s.encOut ∧
    { t with cfg := Config.hardware, inputs := [], delivered := [], encOut := none } = State.reset

/-- R173: the head byte performs the operation that BYTE(b) selects, on the queue already shortened. Compared with the
operation taken from the input side when nothing is queued: what it leaves in the queue goes in front of the rest. -/
def Obligations.ReplayByteRunsSelectedOperation : Prop :=
  ∀ (s : State) (b : Byte) (rest : List Byte), s.Inv → s.cfg.resync = .rescan → s.run = .running → s.pend = .none →
    s.rpl = b :: rest →
    ∃ t, exec (decodeEvent s.context (0#2 ++ b : EventWord)) { s with rpl := [] } = .next t ∧
      exec .replayByte s = .next { t with rpl := t.rpl ++ rest }

/-- R190: the bytes of a frame, on every Packet whose Length fits. -/
def Obligations.EncBuildsFrame : Prop :=
  ∀ (s : State) (a ty : Byte) (p : List Byte), p.length + 1 ≤ s.cfg.maxLen.val →
    ∃ l : Byte, l.toNat = p.length + 1 ∧
      exec (.enc a ty p) s =
        .next { s with
          encOut := some (.frame ([0xFF, a, l] ++ [ty] ++ p ++ [chk s.cfg.chk a l ([ty] ++ p)])) }

/-- R191: FrameTooLarge, and exactly then. -/
def Obligations.EncRejectsLongPayload : Prop :=
  (∀ (s : State) (a ty : Byte) (p : List Byte), s.cfg.maxLen.val < p.length + 1 →
    exec (.enc a ty p) s = .next { s with encOut := some (.error .frameTooLarge p.length) }) ∧
  ∀ (s : State) (a ty : Byte) (p : List Byte), ∃ t, exec (.enc a ty p) s = .next t ∧
    ((∃ k n, t.encOut = some (.error k n)) ↔ s.cfg.maxLen.val < p.length + 1)

/-! ### Selection, enabling and the step -/

/-- R85, bit by bit. Where two bits ask for something at once (no reachable state allows it, R203), the order is R232's. -/
def Obligations.ControlVectorSelects : Prop :=
  ∀ (c : Context) (cv : ControlVector),
    (cv.getLsbD 3 = true → decodeControl c cv = .ok (.reset (cv.getLsbD 2) (cv.getLsbD 1) (cv.getLsbD 0))) ∧
    (cv.getLsbD 3 = false →
      (cv.getLsbD 2 = true ∧ c.run = .idle → decodeControl c cv = .ok (.start (cv.getLsbD 1) (cv.getLsbD 0))) ∧
      (¬(cv.getLsbD 2 = true ∧ c.run = .idle) →
        (cv.getLsbD 1 = true ∧ c.pend = .pkt → decodeControl c cv = .ok (.pktAccept (cv.getLsbD 2) (cv.getLsbD 0))) ∧
        (cv.getLsbD 0 = true ∧ c.pend = .err → decodeControl c cv = .ok (.errAccept (cv.getLsbD 2) (cv.getLsbD 1))) ∧
        (¬(cv.getLsbD 1 = true ∧ c.pend = .pkt) → ¬(cv.getLsbD 0 = true ∧ c.pend = .err) →
          decodeControl c cv = .error .nothingSelected)))

/-- R150: what readiness is, and that an event operation is selected exactly when an event is offered and the block is ready
(with `rst` = 0, since RESET wins, R89). -/
def Obligations.InputIsTakenExactlyWhenReady : Prop :=
  (∀ s : State, s.rx_ready = true ↔ s.run = .running ∧ s.pend = .none ∧ (s.cfg.resync = .cursor ∨ s.rpl = [])) ∧
  ∀ (x : Sample) (s : State),
    (∃ i, select x s = some i ∧ formatOf i = .evt10) ↔ (x.cv.getLsbD 3 = false ∧ x.rx_valid = true ∧ s.rx_ready = true)

/-- R144: outside RUNNING no event of any kind is consumed. -/
def Obligations.NoEventOutsideRunning : Prop :=
  ∀ (x : Sample) (s : State) (i : Instr), s.run ≠ .running →
    s.rx_ready = false ∧ (select x s = some i → formatOf i ≠ .evt10)

/-- 30_encoding.md section 4 (R90, marked derived there): for every state and every event word exactly one row applies. -/
def Obligations.OperationMapIsTotalAndUnambiguous : Prop :=
  ∀ (s : State) (ew : EventWord),
    ∃ i, (formatOf i = .evt10 ∧ encode i = some (.event ew) ∧ i.selectedIn s.context = true) ∧
      (∀ j, formatOf j = .evt10 → encode j = some (.event ew) → j.selectedIn s.context = true → j = i) ∧
      decodeEvent s.context ew = i

/-- The step runs the operation the pins and the registers select, with the pins of this step gone; if none is selected no
register changes. -/
def Obligations.StepRunsSelectedOperation : Prop :=
  ∀ s : State,
    (∀ i, select s.sample s = some i → step s = exec i s.pastSample) ∧
    (select s.sample s = none → step s = .next { s with inputs := s.inputs.tail })

/-- R232: the order in which one edge looks for its operation. -/
def Obligations.StepFollowsCycleOrder : Prop :=
  ∀ (s u : State) (x : Sample), x = s.sample → u = { s with inputs := s.inputs.tail } →
    (x.cv.getLsbD 3 = true → step s = exec (.reset (x.cv.getLsbD 2) (x.cv.getLsbD 1) (x.cv.getLsbD 0)) u) ∧
    (x.cv.getLsbD 3 = false →
      (s.run = .idle ∧ x.cv.getLsbD 2 = true → step s = exec (.start (x.cv.getLsbD 1) (x.cv.getLsbD 0)) u) ∧
      (¬(s.run = .idle ∧ x.cv.getLsbD 2 = true) →
        (s.pend = .pkt ∧ x.cv.getLsbD 1 = true → step s = exec (.pktAccept (x.cv.getLsbD 2) (x.cv.getLsbD 0)) u) ∧
        (s.pend = .err ∧ x.cv.getLsbD 0 = true → step s = exec (.errAccept (x.cv.getLsbD 2) (x.cv.getLsbD 1)) u) ∧
        (¬(s.pend = .pkt ∧ x.cv.getLsbD 1 = true) → ¬(s.pend = .err ∧ x.cv.getLsbD 0 = true) →
          (s.cfg.resync = .rescan ∧ s.run = .running ∧ s.pend = .none ∧ s.rpl ≠ [] → step s = exec .replayByte u) ∧
          (¬(s.cfg.resync = .rescan ∧ s.run = .running ∧ s.pend = .none ∧ s.rpl ≠ []) →
            (x.rx_valid = true ∧ s.rx_ready = true → step s = exec (decodeEvent s.context x.ew) u) ∧
            (¬(x.rx_valid = true ∧ s.rx_ready = true) → step s = .next u)))))

/-- 60_exceptions.md section 2 and 70_reset_and_hazards.md section 3 (R203, marked derived; R232): at most one operation is
enabled at an edge. -/
def Obligations.AtMostOneOperationEnabled : Prop :=
  ∀ (s : State) (x : Sample) (i j : Instr), s.Inv → enabledAt x i s = true → enabledAt x j s = true → i = j

/-- The step is the transaction-level relation of R10 seen through R232: it "adds no behaviour to the transaction-level
relation and removes none". -/
def Obligations.StepIsTheTransactionRelation : Prop :=
  ∀ (s t : State), s.Inv →
    (step s = .next t ↔
      (∃ i, enabledAt s.sample i s = true ∧ exec i s.pastSample = .next t) ∨
      ((∀ i, enabledAt s.sample i s = false) ∧ t = s.pastSample))

/-- The model's choice (log entry 9), from "has no effect otherwise" (R85) and R90: an operation whose enabling condition does
not hold changes nothing. RSV.KIND is refused in any state. -/
def Obligations.DisabledOperationChangesNothing : Prop :=
  ∀ (i : Instr) (s : State), (∀ x, i ≠ .rsvKind x) → enabled i s = false → exec i s = .next s

/-- The model's choice (log entry 11): a table word placed on the pins is the operation the next step runs. -/
def Obligations.FetchWordRunsItsOperation : Prop :=
  ∀ (s : State) (nbits w : Nat) (i : Instr), decodeTableWord nbits w = some i →
    ∃ u : State, step (s.withFetchWord nbits w) = exec i u ∧ enabled i u = true ∧ u.cfg = s.cfg ∧ u.inputs = s.inputs ∧
      u.delivered = s.delivered ∧ u.encOut = s.encOut

/-! ### Encoding -/

/-- Words written out from spec/opcode_table.json and 95_test_vectors.md, as `decodeTableWord` reads a bare word. The context
it reads one in, SEEK_START for an event word and the most significant set bit for a control vector, and the widths are the
model's choice (log entries 11 and 12). -/
def Obligations.WrittenOutWordsDecode : Prop :=
  decodeTableWord 16 0x012 = some (.seekSkip 0x12) ∧ decodeTableWord 16 0x0FF = some .seekSync ∧
  decodeTableWord 16 0x100 = some (.seekEos 0x00) ∧ decodeTableWord 16 0x209 = some (.transportError 0x09) ∧
  decodeTableWord 16 0x300 = some (.rsvKind 0x00) ∧ decodeTableWord 8 0x8 = some (.reset false false false) ∧
  decodeTableWord 8 0x4 = some (.start false false) ∧ decodeTableWord 8 0x2 = some (.pktAccept false false) ∧
  decodeTableWord 8 0x1 = some (.errAccept false false) ∧ decodeTableWord 8 0x0 = none

/-- Every operation that has a word decodes from it, in every context in which its row applies and in which IDLE has nothing
pending ((I-a) of R35). -/
def Obligations.DecodeInvertsEncode : Prop :=
  ∀ (c : Context) (i : Instr) (w : TableWord), (c.run = .idle → c.pend = .none) → i.selectedIn c = true →
    encode i = some w → decode c w = .ok i

/-- The other direction: the operation decoded from a word encodes to that word, and its row applies. -/
def Obligations.EncodeInvertsDecode : Prop :=
  ∀ (c : Context) (i : Instr) (w : TableWord), decode c w = .ok i →
    encode i = some w ∧ i.selectedIn c = true ∧ i.wellFormed c.cfg = true

/-! ### Invariants and whole-machine rules -/

/-- The invariants hold right after reset. -/
def Obligations.InvariantsHoldAtReset : Prop := State.reset.Inv

/-- 10_state.md section 4 (R35, marked derived): every step keeps the invariants (I-a) to (I-h). -/
def Obligations.StepKeepsInvariants : Prop :=
  ∀ s t : State, s.Inv → step s = .next t → t.Inv

/-- R26, R55 (marked derived there): no read of an entry without a value and no store outside the buffer; the one stop is the
reserved kind, exactly when such an event is consumed. -/
def Obligations.StepStopsOnlyOnReservedKind : Prop :=
  ∀ s : State, s.Inv →
    (∀ f, step s ≠ .fault f) ∧
    (∀ r, step s = .refused r ↔
      r = .reservedEventKind ∧ s.sample.cv.getLsbD 3 = false ∧ s.sample.rx_valid = true ∧ s.takesInput ∧
        ∃ d : Byte, s.sample.ew = (3#2 ++ d : EventWord))

/-- The frame of every operation: a register its rule does not write is unchanged, and no operation writes the parameters or
the pins. -/
def Obligations.OperationFrames : Prop :=
  ∀ (i : Instr) (s t : State), exec i s = .next t →
    (.run ∉ writes i → t.run = s.run) ∧ (.state ∉ writes i → t.state = s.state) ∧
    (.addr_r ∉ writes i → t.addr_r = s.addr_r) ∧ (.len_r ∉ writes i → t.len_r = s.len_r) ∧
    (.rem ∉ writes i → t.rem = s.rem) ∧ (.mbuf ∉ writes i → t.mbuf = s.mbuf) ∧ (.pend ∉ writes i → t.pend = s.pend) ∧
    (.erec ∉ writes i → t.erec = s.erec) ∧ (.fbuf ∉ writes i → t.fbuf = s.fbuf) ∧ (.rpl ∉ writes i → t.rpl = s.rpl) ∧
    (.delivered ∉ writes i → t.delivered = s.delivered) ∧ (.encOut ∉ writes i → t.encOut = s.encOut) ∧
    t.cfg = s.cfg ∧ t.inputs = s.inputs

/-- 46_resync_rescan.md R170: in CURSOR mode no operation but RESET touches the log and the queue, which do not exist there. -/
def Obligations.CursorModeHasNoReplay : Prop :=
  ∀ (i : Instr) (s t : State), s.cfg.resync = .cursor → isReset i = false → exec i s = .next t →
    t.fbuf = s.fbuf ∧ t.rpl = s.rpl

/-- R63: while a result is pending, no operation but RESET writes what the ports show; and none consumes an event (R155). -/
def Obligations.PendingOutputIsStable : Prop :=
  ∀ (s t : State) (i : Instr), s.pend ≠ .none → isReset i = false → exec i s = .next t →
    t.mbuf = s.mbuf ∧ t.len_r = s.len_r ∧ t.addr_r = s.addr_r ∧ t.rem = s.rem ∧ t.erec = s.erec ∧ t.state = s.state ∧
    t.fbuf = s.fbuf ∧ t.rpl = s.rpl

/-- 45_output.md (R156, marked derived): an attempted frame that ends without RESET leaves exactly one result pending, and a
result that belongs to no frame is a START_NOT_FOUND or the TRANSPORT_ERROR of a TERR in SEEK_START. -/
def Obligations.OneResultPerAttemptedFrame : Prop :=
  ∀ s t : State, s.Inv → step s = .next t →
    (s.state ≠ .seekStart → t.state = .seekStart → s.sample.cv.getLsbD 3 = false → s.pend = .none ∧ t.pend ≠ .none) ∧
    (s.pend = .none → t.pend ≠ .none →
      t.state = .seekStart ∧
      (s.state = .seekStart →
        t.pend = .err ∧ (t.erec.e_kind = .startNotFound ∨ (t.erec.e_kind = .transportError ∧ t.run = .terminated))))

/-- 60_exceptions.md section 3 (R204, marked derived): what taking a frame error changes and what it leaves. -/
def Obligations.ErrorEntryChangesNothingElse : Prop :=
  ∀ (i : Instr) (s t : State), exec i s = .next t → s.pend = .none → t.pend = .err →
    t.state = .seekStart ∧ t.addr_r = s.addr_r ∧ t.len_r = s.len_r ∧ t.rem = s.rem ∧ t.mbuf = s.mbuf ∧
    t.delivered = s.delivered ∧ t.erec.e_kind ≠ .none ∧ t.erec.e_kind ≠ .frameTooLarge ∧
    (t.erec.e_kind = .transportError → t.run = .terminated) ∧ (t.erec.e_kind ≠ .transportError → t.run = s.run)

/-- R231: the parameters do not change, however long the block runs. -/
def Obligations.ParametersNeverChange : Prop :=
  ∀ (n : Nat) (s t : State), steps n s = .next t → t.cfg = s.cfg

/-- R229 (marked derived): without `rst`, a terminated block stays terminated however long it runs, no event operation is
selected, and all it can still do is deliver the one result that is pending. -/
def Obligations.TerminationIsFinal : Prop :=
  ∀ (n : Nat) (s t : State), s.run = .terminated → (∀ x ∈ s.inputs, x.cv.getLsbD 3 = false) →
    steps n s = .next t →
    t.run = .terminated ∧ t.erec = s.erec ∧ t.mbuf = s.mbuf ∧ t.state = s.state ∧
    (s.pend = .none → t.delivered = s.delivered ∧ t.pend = .none) ∧ t.delivered.length ≤ s.delivered.length + 1

/-- R226 and 93_implementation_defined.md section 3: an event that is not consumed makes no difference, and while `rst` = 1
no other input does. -/
def Obligations.UnsampledInputsMakeNoDifference : Prop :=
  (∀ (s : State) (cv : ControlVector) (v v' : Bool) (e e' : EventWord) (l : List Sample), ¬s.takesInput →
    step { s with inputs := { cv := cv, rx_valid := v, ew := e } :: l } =
      step { s with inputs := { cv := cv, rx_valid := v', ew := e' } :: l }) ∧
  (∀ (s : State) (cv cv' : ControlVector) (v v' : Bool) (e e' : EventWord) (l : List Sample),
    cv.getLsbD 3 = true → cv'.getLsbD 3 = true →
    step { s with inputs := { cv := cv, rx_valid := v, ew := e } :: l } =
      step { s with inputs := { cv := cv', rx_valid := v', ew := e' } :: l })

/-- R58 (marked derived): the storage is bounded by the parameters. -/
def Obligations.StorageStaysBounded : Prop :=
  ∀ (n : Nat) (s t : State), s.Inv → steps n s = .next t →
    t.mbuf.length ≤ t.cfg.maxLen.val ∧ t.fbuf.length + t.rpl.length ≤ 2 * (t.cfg.maxLen.val + 3)

/-! ### The frame as a whole -/

/-- 42_message.md (R121, R122, marked derived): once a Length is accepted, the next `rem` bytes are all stored, whatever they
are, and the block then waits for the checksum with exactly those bytes in the buffer. -/
def Obligations.MessageBytesAreAllStored : Prop :=
  ∀ (s : State) (bs : List Byte) (l : List Sample), s.Inv → s.takesInput → s.state = .readMessage →
    bs.length = s.rem.toNat →
    ∃ t, steps bs.length { s with inputs := bs.map Sample.ofByte ++ l } = .next t ∧
      t.state = .readChecksum ∧ t.takesInput ∧ t.inputs = l ∧ t.rem = 0 ∧ t.addr_r = s.addr_r ∧ t.len_r = s.len_r ∧
      t.delivered = s.delivered ∧
      (∀ i, i < s.len_r.toNat - s.rem.toNat → t.mbuf.read i = s.mbuf.read i) ∧
      (∀ i, i < bs.length → t.mbuf.read (s.len_r.toNat - s.rem.toNat + i) = bs[i]?)

/-- 47_encoder.md (R192, marked derived): the bytes ENC gives, fed to a block that seeks, come out as the packet, in either
resync mode, for every MAX_LEN and CHK. -/
def Obligations.EncodedFrameIsDelivered : Prop :=
  ∀ (s : State) (a ty : Byte) (p bytes : List Byte), s.takesInput → s.state = .seekStart →
    encFrame s.cfg a ty p = .frame bytes →
    ∃ t, steps (bytes.length + 1) { s with inputs := bytes.map Sample.ofByte ++ [Sample.accept] } = .next t ∧
      t.delivered = s.delivered ++ [.packet a { messageType := ty, payload := p }] ∧
      t.state = .seekStart ∧ t.takesInput ∧ t.inputs = []

/-- 45_output.md (R157, marked derived): in CURSOR mode a frame with a wrong checksum, then a good frame, give one error and
then that packet. -/
def Obligations.CursorResynchronizes : Prop :=
  ∀ (s : State) (a ty a' ty' l c : Byte) (p p' bytes : List Byte), s.takesInput → s.state = .seekStart →
    s.cfg.resync = .cursor → l.toNat = p.length + 1 → l.toNat ≤ s.cfg.maxLen.val → c ≠ chk s.cfg.chk a l (ty :: p) →
    encFrame s.cfg a' ty' p' = .frame bytes →
    ∃ t,
      steps (p.length + 6 + bytes.length + 1)
        { s with
          inputs := ([0xFF, a, l, ty] ++ p ++ [c]).map Sample.ofByte ++ [Sample.accept] ++ bytes.map Sample.ofByte ++
            [Sample.accept] } = .next t ∧
      t.state = .seekStart ∧ t.pend = .none ∧
      t.delivered = s.delivered ++
        [.error { e_kind := .checksumMismatch, e_cause := .range, e_state := .readChecksum, e_addr := a, e_len := l,
                  e_count := l, e_got := c, e_exp := chk s.cfg.chk a l (ty :: p), e_tcode := 0 },
         .packet a' { messageType := ty', payload := p' }]

/-- 46_resync_rescan.md (R177 (f), marked derived): as long as no attempted frame fails, RESCAN and CURSOR do the same. -/
def Obligations.ModesAgreeWhileNoFrameFails : Prop :=
  ∀ s r t : State, s.Inv → sameButMode s r → step s = .next t →
    ¬(s.state ≠ .seekStart ∧ t.pend = .err ∧ t.run = .running) →
    ∃ q, step r = .next q ∧ sameButMode t q

/-- 46_resync_rescan.md (R177 (a), marked derived): with consumers that accept and no new input, the replay queue empties,
within a bound on the steps. -/
def Obligations.ReplayQueueDrains : Prop :=
  ∀ s : State, s.Inv → s.run = .running → s.cfg.resync = .rescan →
    ∃ n t, n ≤ 2 * (s.fbuf.length + s.rpl.length + 1) * (s.fbuf.length + s.rpl.length + 2) + 1 ∧
      steps n { s with inputs := List.replicate n Sample.accept } = .next t ∧ t.rpl = [] ∧ t.pend = .none

/-! ### Runs on a finite input -/

/-- 70_reset_and_hazards.md section 4: the end of a run, in terms of the rows of the opcode table at the pins of the coming
edge, on which the consumers are ready by the model's choice (log entry 25). -/
def Obligations.RunEndsExactlyWhenNothingIsEnabled : Prop :=
  ∀ (e : Environment) (s : State), s.Inv →
    (runEnded e s = true ↔
      e.host = [] ∧ (∀ i, enabledAt e.pins i s = false) ∧ (e.events = [] ∨ s.run = .terminated))

/-- A run is a run of the step on a list of pins: RESET, START, and then both consumers ready at every edge,
which is the model's choice (log entry 25). -/
def Obligations.RunIsARunOfSteps : Prop :=
  ∀ (n : Nat) (events : List EventWord) (s t : State) (e : Environment), runOf n events s = .next (e, t) →
    ∃ l : List Sample, l.length ≤ n ∧
      l.map Sample.cv =
        ([controlVector true false false false, controlVector false true false false] ++
          List.replicate l.length (controlVector false false true true)).take l.length ∧
      steps l.length { s with inputs := l, delivered := [] } = .next { t with inputs := [] }

/-- 70_reset_and_hazards.md section 4 and 46_resync_rescan.md (R177 (a), marked derived): from every state, in either resync
mode, the run on a finite sequence without the reserved kind ends. Nothing is pending then, and the events not taken are the
last ones of the sequence: none, or the block is TERMINATED. A frame may be open. That the
consumers accept at the first edge is the model's choice (log entry 25). -/
def Obligations.EveryRunEnds : Prop :=
  ∀ (s : State) (events : List EventWord), (∀ w ∈ events, eventKind w ≠ 3) →
    ∃ n t taken left, observe n events s = some { deliveries := t.delivered, final := t } ∧
      runOf n events s = .next ({ host := [], events := left }, t) ∧ events = taken ++ left ∧
      (left = [] ∨ t.run = .terminated) ∧ t.run ≠ .idle ∧ t.pend = .none ∧ t.Inv

/-! ### Checksum and outputs -/

/-- R131's formula, on every Message, and its value on Scenario A's frame. -/
def Obligations.ReferenceChecksumFormula : Prop :=
  (∀ (a l : Byte) (m : List Byte),
    (chk .reference a l m).toNat = 0xFF - (l.toNat + (m.map BitVec.toNat).sum) % 256) ∧
  chk .reference 0x02 0x04 [0x1B, 0x01, 0x01, 0x01] = 0xDD

/-- R134 (marked derived): both functions satisfy K1 and K2. -/
def Obligations.ChecksumMeetsConstraints : Prop :=
  ∀ f : ChkFunction, chk f 0x02 0x04 [0x1B, 0x01, 0x01, 0x01] = 0xDD ∧ chk f 0x02 0x04 [0x1B, 0x01, 0xDD, 0xFF] ≠ 0x02

/-- R29, with the encodings of R21, R22 and R28. -/
def Obligations.StatusOutputsCopyRegisters : Prop :=
  ∀ s : State,
    (s.run = .idle ↔ s.st_run = 0) ∧ (s.run = .running ↔ s.st_run = 1) ∧ (s.run = .terminated ↔ s.st_run = 2) ∧
    (s.state = .seekStart ↔ s.st_state = 0) ∧ (s.state = .readAddress ↔ s.st_state = 1) ∧
    (s.state = .readLength ↔ s.st_state = 2) ∧ (s.state = .readMessage ↔ s.st_state = 3) ∧
    (s.state = .readChecksum ↔ s.st_state = 4) ∧
    (s.pend = .none ↔ s.st_pend = 0) ∧ (s.pend = .pkt ↔ s.st_pend = 1) ∧ (s.pend = .err ↔ s.st_pend = 2)

/-- The error port of R50 shows `erec` while `pend` = ERR, with the codes of R86 to R88, in every state with the invariants:
the kind is 1 to 4 (R86, 93_implementation_defined.md section 2). -/
def Obligations.ErrorPortShowsRecord : Prop :=
  ∀ s : State, s.Inv → s.pend = .err →
    s.err_valid = true ∧ s.err_addr = some s.erec.e_addr ∧ s.err_len = some s.erec.e_len ∧
    s.err_count = some s.erec.e_count ∧ s.err_got = some s.erec.e_got ∧ s.err_exp = some s.erec.e_exp ∧
    s.err_tcode = some s.erec.e_tcode ∧ s.err_state = some s.erec.e_state.code ∧
    (s.err_cause = some 0 ↔ s.erec.e_cause = .range) ∧ (s.err_cause = some 1 ↔ s.erec.e_cause = .truncated) ∧
    ∃ k : BitVec 3, s.err_kind = some k ∧ 1 ≤ k.toNat ∧ k.toNat ≤ 4 ∧
      (k = 1 ↔ s.erec.e_kind = .startNotFound) ∧ (k = 2 ↔ s.erec.e_kind = .length) ∧
      (k = 3 ↔ s.erec.e_kind = .checksumMismatch) ∧ (k = 4 ↔ s.erec.e_kind = .transportError)
end

