-- ==== Sys2Proof/Laws/Encoding.lean ====
section
/-! SUPPORT. The bits of the words: the fields of an event word and of a control vector. -/

namespace Sys2Proof

@[simp] theorem eventKind_eventWord (k : BitVec 2) (b : Byte) : eventKind (eventWord k b) = k := by
  unfold eventKind eventWord
  ext i hi
  rw [BitVec.getElem_extractLsb']
  refine (BitVec.getLsbD_append (x := k) (y := b)).trans ?_
  simp [BitVec.getLsbD_eq_getElem hi]

@[simp] theorem eventData_eventWord (k : BitVec 2) (b : Byte) : eventData (eventWord k b) = b := by
  unfold eventData eventWord
  ext i hi
  rw [BitVec.getElem_extractLsb']
  refine (BitVec.getLsbD_append (x := k) (y := b)).trans ?_
  simp [hi]

/-- An event word is its kind and its data. -/
@[simp] theorem eventWord_eta (ew : EventWord) : eventWord (eventKind ew) (eventData ew) = ew := by
  unfold eventKind eventData eventWord
  ext i hi
  simp only [BitVec.getElem_append]
  split
  · simp_all
  · next h => simp [show 8 + (i - 8) = i by omega, BitVec.getLsbD_eq_getElem hi]

theorem eventWord_inj {k k' : BitVec 2} {b b' : Byte} : eventWord k b = eventWord k' b' ↔ k = k' ∧ b = b' := by
  constructor
  · intro h
    have hk := congrArg eventKind h
    have hb := congrArg eventData h
    simp at hk hb
    exact ⟨hk, hb⟩
  · rintro ⟨rfl, rfl⟩
    rfl

/-- The four kinds (R80). -/
theorem kind_cases (k : BitVec 2) : k = 0#2 ∨ k = 1#2 ∨ k = 2#2 ∨ k = 3#2 := by
  revert k
  decide

/-- An event word has one of the four forms of R80. -/
theorem eventWord_cases (ew : EventWord) :
    (∃ b, ew = eventWord 0#2 b) ∨ (∃ b, ew = eventWord 1#2 b) ∨ (∃ b, ew = eventWord 2#2 b) ∨ ∃ b, ew = eventWord 3#2 b := by
  have h := eventWord_eta ew
  rcases kind_cases (eventKind ew) with hk | hk | hk | hk <;> rw [hk] at h
  · exact .inl ⟨_, h.symm⟩
  · exact .inr (.inl ⟨_, h.symm⟩)
  · exact .inr (.inr (.inl ⟨_, h.symm⟩))
  · exact .inr (.inr (.inr ⟨_, h.symm⟩))

theorem controlVector_bits (r s p e : Bool) :
    (controlVector r s p e).getLsbD 3 = r ∧ (controlVector r s p e).getLsbD 2 = s ∧
      (controlVector r s p e).getLsbD 1 = p ∧ (controlVector r s p e).getLsbD 0 = e := by
  cases r <;> cases s <;> cases p <;> cases e <;> decide

theorem controlVector_rst (r s p e : Bool) : (controlVector r s p e).getLsbD 3 = r := (controlVector_bits r s p e).1

theorem controlVector_start (r s p e : Bool) : (controlVector r s p e).getLsbD 2 = s := (controlVector_bits r s p e).2.1

theorem controlVector_pktReady (r s p e : Bool) : (controlVector r s p e).getLsbD 1 = p :=
  (controlVector_bits r s p e).2.2.1

theorem controlVector_errReady (r s p e : Bool) : (controlVector r s p e).getLsbD 0 = e :=
  (controlVector_bits r s p e).2.2.2

/-- The same in simp's normal form for a bit at a known place. -/
@[simp] theorem controlVector_bit3 (r s p e : Bool) : (controlVector r s p e)[3] = r := controlVector_rst r s p e

@[simp] theorem controlVector_bit2 (r s p e : Bool) : (controlVector r s p e)[2] = s := controlVector_start r s p e

@[simp] theorem controlVector_bit1 (r s p e : Bool) : (controlVector r s p e)[1] = p := controlVector_pktReady r s p e

@[simp] theorem controlVector_bit0 (r s p e : Bool) : (controlVector r s p e)[0] = e := controlVector_errReady r s p e

/-- A control vector is its four inputs. -/
theorem controlVector_eta (cv : ControlVector) :
    controlVector (cv.getLsbD 3) (cv.getLsbD 2) (cv.getLsbD 1) (cv.getLsbD 0) = cv := by
  revert cv
  decide

theorem controlVector_inj {r s p e r' s' p' e' : Bool} :
    controlVector r s p e = controlVector r' s' p' e' ↔ r = r' ∧ s = s' ∧ p = p' ∧ e = e' := by
  constructor
  · intro h
    have h3 := congrArg (·.getLsbD 3) h
    have h2 := congrArg (·.getLsbD 2) h
    have h1 := congrArg (·.getLsbD 1) h
    have h0 := congrArg (·.getLsbD 0) h
    simp only [controlVector_rst, controlVector_start, controlVector_pktReady, controlVector_errReady] at h3 h2 h1 h0
    exact ⟨h3, h2, h1, h0⟩
  · rintro ⟨rfl, rfl, rfl, rfl⟩
    rfl

/-- A byte event's operation is the one of R89's BYTE rows. -/
@[simp] theorem decodeEvent_byte (c : Context) (b : Byte) : decodeEvent c (eventWord 0#2 b) = decodeByte c b := by
  simp [decodeEvent]

/-- An EOS event's operation is SEEK.EOS in SEEK_START and FRAME.EOS in the other frame states. -/
theorem decodeEvent_eos (c : Context) (x : Byte) :
    decodeEvent c (eventWord 1#2 x) = if c.state = .seekStart then .seekEos x else .frameEos x := by
  cases hs : c.state <;> simp [decodeEvent, hs]

@[simp] theorem decodeEvent_terr (c : Context) (x : Byte) : decodeEvent c (eventWord 2#2 x) = .transportError x := by
  simp [decodeEvent]

@[simp] theorem decodeEvent_reserved (c : Context) (x : Byte) : decodeEvent c (eventWord 3#2 x) = .rsvKind x := by
  simp [decodeEvent]

end Sys2Proof
end

