-- ==== Sys2Proof/Laws/Memory.lean ====
section
/-! SUPPORT. The laws of the packet buffer: a read after a write, the canonical form, the bounds, and reading a range. -/

namespace Sys2Proof.Machine.Memory

/-- A read of the written index gives the written byte. -/
@[simp] theorem read_write_same (m : Memory) (i : Nat) (b : Byte) : read (write m i b) i = some b := by
  induction m with
  | nil => simp [write, read]
  | cons c m ih =>
    unfold write
    split
    · simp [read]
    · split
      · simp [read]
      · simp [read, *]

/-- A write leaves every other index alone. -/
theorem read_write_other (m : Memory) (b : Byte) {i j : Nat} (h : j ≠ i) : read (write m i b) j = read m j := by
  induction m with
  | nil => simp [write, read, h]
  | cons c m ih =>
    unfold write
    split
    · simp [read, h]
    · split
      · next hij => subst hij; simp [read, h]
      · simp [read, ih]

/-- A write keeps the entries written before. -/
theorem isSome_read_write {m : Memory} {i j : Nat} (b : Byte) (h : (read m j).isSome) : (read (write m i b) j).isSome := by
  by_cases hij : j = i
  · subst hij; simp
  · rwa [read_write_other m b hij]

/-- After a write at `n`, one more entry from the start is written. -/
theorem written_write_succ {m : Memory} {n : Nat} (b : Byte) (h : written m n) : written (write m n b) (n + 1) := by
  intro i hi
  by_cases hin : i = n
  · subst hin; simp
  · exact isSome_read_write b (h i (by omega))

/-- Rising after `i` is rising after anything below. -/
theorem risingAfter_mono {m : Memory} {i j : Nat} (hij : i ≤ j) (h : risingAfter j m = true) : risingAfter i m = true := by
  cases m with
  | nil => rfl
  | cons c m =>
    simp only [risingAfter, Bool.and_eq_true, decide_eq_true_eq] at h ⊢
    exact ⟨by omega, h.2⟩

theorem risingAfter_write {m : Memory} {k i : Nat} (b : Byte) (hk : k < i) (h : risingAfter k m = true) :
    risingAfter k (write m i b) = true := by
  induction m generalizing k with
  | nil => simp [write, risingAfter, hk]
  | cons c m ih =>
    simp only [risingAfter, Bool.and_eq_true, decide_eq_true_eq] at h
    unfold write
    split
    · next hlt => simp [risingAfter, hk, hlt, h.2]
    · split
      · next heq => subst heq; simp [risingAfter, hk, h.2]
      · next h1 h2 => simp [risingAfter, h.1, ih (by omega) h.2]

/-- A write keeps the canonical form. -/
theorem wf_write {m : Memory} (i : Nat) (b : Byte) (h : wf m = true) : wf (write m i b) = true := by
  cases m with
  | nil => rfl
  | cons c m =>
    unfold write
    split
    · next hlt => simpa [wf, risingAfter, hlt] using h
    · split
      · next heq => subst heq; simpa [wf] using h
      · next h1 h2 => exact risingAfter_write b (by omega) h

/-- A write inside the bounds keeps them. -/
theorem within_write {m : Memory} {n i : Nat} (b : Byte) (hi : i < n) (h : within n m = true) :
    within n (write m i b) = true := by
  unfold within at *
  induction m with
  | nil => simp [write, hi]
  | cons c m ih =>
    simp only [List.all_cons, Bool.and_eq_true, decide_eq_true_eq] at h
    unfold write
    split
    · simp [hi, h.1, h.2]
    · split
      · simp [hi, h.2]
      · simp [h.1, ih h.2]

/-- A buffer in canonical form inside its bounds lists at most `n` entries (R58). -/
theorem length_le_of_within {m : Memory} {n : Nat} (hw : wf m = true) (hb : within n m = true) : m.length ≤ n := by
  have above : ∀ (m : Memory) (k : Nat), k < n → risingAfter k m = true → within n m = true → m.length + k + 1 ≤ n := by
    intro m
    induction m with
    | nil => intro k hk _ _; simp only [List.length_nil]; omega
    | cons c m ih =>
      intro k hk hr hb
      simp only [risingAfter, within, List.all_cons, Bool.and_eq_true, decide_eq_true_eq] at hr hb
      have := ih c.1 hb.1 hr.2 hb.2
      simp only [List.length_cons]
      omega
  cases m with
  | nil => simp
  | cons c m =>
    simp only [within, List.all_cons, Bool.and_eq_true, decide_eq_true_eq] at hb
    have := above m c.1 hb.1 hw hb.2
    simp only [List.length_cons]
    omega

/-- Reading a range gives a list exactly when every entry of it holds the list's byte. -/
theorem readRange_eq_some_iff (m : Memory) (n : Nat) (i : Nat) (l : List Byte) :
    readRange m i n = some l ↔ l.length = n ∧ ∀ k, k < n → read m (i + k) = l[k]? := by
  induction n generalizing i l with
  | zero => cases l <;> simp [readRange]
  | succ n ih =>
    cases hr : read m i with
    | none =>
      simp only [readRange, hr]
      constructor
      · intro h; simp at h
      · intro ⟨hl, hk⟩
        have := hk 0 (by omega)
        cases l with
        | nil => simp at hl
        | cons a l => simp [hr] at this
    | some b =>
      cases l with
      | nil => cases ht : readRange m (i + 1) n <;> simp [readRange, hr, ht]
      | cons a l =>
        have key := ih (i + 1) l
        constructor
        · intro h
          cases ht : readRange m (i + 1) n with
          | none => simp [readRange, hr, ht] at h
          | some bs =>
            simp only [readRange, hr, ht, Option.some.injEq, List.cons.injEq] at h
            obtain ⟨rfl, rfl⟩ := h
            obtain ⟨hl, hk⟩ := key.mp ht
            refine ⟨by simp [hl], ?_⟩
            intro k hkn
            cases k with
            | zero => simp [hr]
            | succ k =>
              have := hk k (by omega)
              rw [show i + (k + 1) = i + 1 + k by omega]
              simpa using this
        · intro ⟨hl, hk⟩
          have h0 := hk 0 (by omega)
          simp only [Nat.add_zero, hr, List.getElem?_cons_zero, Option.some.injEq] at h0
          subst h0
          have ht : readRange m (i + 1) n = some l := by
            refine key.mpr ⟨by simpa using hl, ?_⟩
            intro k hkn
            have := hk (k + 1) (by omega)
            rw [show i + (k + 1) = i + 1 + k by omega] at this
            simpa using this
          simp [readRange, hr, ht]

/-- A range of written entries reads. -/
theorem isSome_readRange {m : Memory} {i n : Nat} (h : ∀ k, k < n → (read m (i + k)).isSome) :
    (readRange m i n).isSome := by
  induction n generalizing i with
  | zero => rfl
  | succ n ih =>
    have h0 := h 0 (by omega)
    have ht := ih (i := i + 1) (fun k hk => by
      have := h (k + 1) (by omega)
      rwa [show i + (k + 1) = i + 1 + k by omega] at this)
    obtain ⟨b, hb⟩ := Option.isSome_iff_exists.mp h0
    obtain ⟨bs, hbs⟩ := Option.isSome_iff_exists.mp ht
    simp only [Nat.add_zero] at hb
    simp [readRange, hb, hbs]

end Sys2Proof.Machine.Memory

namespace Sys2Proof.Machine

/-- The message the model reads is the one the buffer holds. -/
theorem message_eq_some_iff (s : State) (m : List Byte) : s.message = some m ↔ s.holdsMessage m := by
  unfold State.message State.holdsMessage
  rw [Memory.readRange_eq_some_iff]
  constructor
  · rintro ⟨hl, hk⟩
    exact ⟨hl, fun i hi => by simpa using hk i (by omega)⟩
  · rintro ⟨hl, hk⟩
    exact ⟨hl, fun i hi => by simpa using hk i (by omega)⟩

/-- A message of at least one byte is a packet. -/
theorem packet_of_holdsMessage {s : State} {t : Byte} {p : List Byte} (h : s.holdsMessage (t :: p)) :
    s.packet = some { messageType := t, payload := p } := by
  obtain ⟨hl, hk⟩ := h
  have h0 : s.mbuf.read 0 = some t := by simpa using hk 0 (by simp)
  have hp : s.mbuf.readRange 1 (s.len_r.toNat - 1) = some p := by
    rw [Memory.readRange_eq_some_iff]
    simp only [List.length_cons] at hl
    refine ⟨by omega, ?_⟩
    intro k hkn
    have := hk (k + 1) (by simp only [List.length_cons]; omega)
    rw [show 1 + k = k + 1 by omega]
    simpa using this
  simp [State.packet, h0, hp]

/-- Written entries are some message. -/
theorem exists_message_of_written {s : State} (h : s.mbuf.written s.len_r.toNat) : ∃ m, s.message = some m :=
  Option.isSome_iff_exists.mp (Memory.isSome_readRange (fun k hk => by simpa using h k hk))

end Sys2Proof.Machine
end

