-- ==== Sys2Proof/Laws/State.lean ====
section
/-! SUPPORT. One lemma for each field under each named update of Machine/Ops.lean, so that no proof unfolds an update. -/

namespace Sys2Proof.Machine

variable (s : State)

@[simp] theorem logByte_run (b : Byte) : (s.logByte b).run = s.run := rfl

@[simp] theorem logByte_state (b : Byte) : (s.logByte b).state = s.state := rfl

@[simp] theorem logByte_addr_r (b : Byte) : (s.logByte b).addr_r = s.addr_r := rfl

@[simp] theorem logByte_len_r (b : Byte) : (s.logByte b).len_r = s.len_r := rfl

@[simp] theorem logByte_rem (b : Byte) : (s.logByte b).rem = s.rem := rfl

@[simp] theorem logByte_mbuf (b : Byte) : (s.logByte b).mbuf = s.mbuf := rfl

@[simp] theorem logByte_pend (b : Byte) : (s.logByte b).pend = s.pend := rfl

@[simp] theorem logByte_erec (b : Byte) : (s.logByte b).erec = s.erec := rfl

@[simp] theorem logByte_fbuf (b : Byte) : (s.logByte b).fbuf = if s.rescans then s.fbuf ++ [b] else s.fbuf := rfl

@[simp] theorem logByte_rpl (b : Byte) : (s.logByte b).rpl = s.rpl := rfl

@[simp] theorem logByte_cfg (b : Byte) : (s.logByte b).cfg = s.cfg := rfl

@[simp] theorem logByte_inputs (b : Byte) : (s.logByte b).inputs = s.inputs := rfl

@[simp] theorem logByte_delivered (b : Byte) : (s.logByte b).delivered = s.delivered := rfl

@[simp] theorem logByte_encOut (b : Byte) : (s.logByte b).encOut = s.encOut := rfl

@[simp] theorem logByte_rescans (b : Byte) : (s.logByte b).rescans = s.rescans := rfl

@[simp] theorem clearLog_run : (s.clearLog).run = s.run := rfl

@[simp] theorem clearLog_state : (s.clearLog).state = s.state := rfl

@[simp] theorem clearLog_addr_r : (s.clearLog).addr_r = s.addr_r := rfl

@[simp] theorem clearLog_len_r : (s.clearLog).len_r = s.len_r := rfl

@[simp] theorem clearLog_rem : (s.clearLog).rem = s.rem := rfl

@[simp] theorem clearLog_mbuf : (s.clearLog).mbuf = s.mbuf := rfl

@[simp] theorem clearLog_pend : (s.clearLog).pend = s.pend := rfl

@[simp] theorem clearLog_erec : (s.clearLog).erec = s.erec := rfl

@[simp] theorem clearLog_fbuf : (s.clearLog).fbuf = if s.rescans then [] else s.fbuf := rfl

@[simp] theorem clearLog_rpl : (s.clearLog).rpl = s.rpl := rfl

@[simp] theorem clearLog_cfg : (s.clearLog).cfg = s.cfg := rfl

@[simp] theorem clearLog_inputs : (s.clearLog).inputs = s.inputs := rfl

@[simp] theorem clearLog_delivered : (s.clearLog).delivered = s.delivered := rfl

@[simp] theorem clearLog_encOut : (s.clearLog).encOut = s.encOut := rfl

@[simp] theorem clearLog_rescans : (s.clearLog).rescans = s.rescans := rfl

@[simp] theorem queueReplay_run : (s.queueReplay).run = s.run := rfl

@[simp] theorem queueReplay_state : (s.queueReplay).state = s.state := rfl

@[simp] theorem queueReplay_addr_r : (s.queueReplay).addr_r = s.addr_r := rfl

@[simp] theorem queueReplay_len_r : (s.queueReplay).len_r = s.len_r := rfl

@[simp] theorem queueReplay_rem : (s.queueReplay).rem = s.rem := rfl

@[simp] theorem queueReplay_mbuf : (s.queueReplay).mbuf = s.mbuf := rfl

@[simp] theorem queueReplay_pend : (s.queueReplay).pend = s.pend := rfl

@[simp] theorem queueReplay_erec : (s.queueReplay).erec = s.erec := rfl

@[simp] theorem queueReplay_fbuf : (s.queueReplay).fbuf = if s.rescans then [] else s.fbuf := rfl

@[simp] theorem queueReplay_rpl : (s.queueReplay).rpl = if s.rescans then s.fbuf ++ s.rpl else s.rpl := rfl

@[simp] theorem queueReplay_cfg : (s.queueReplay).cfg = s.cfg := rfl

@[simp] theorem queueReplay_inputs : (s.queueReplay).inputs = s.inputs := rfl

@[simp] theorem queueReplay_delivered : (s.queueReplay).delivered = s.delivered := rfl

@[simp] theorem queueReplay_encOut : (s.queueReplay).encOut = s.encOut := rfl

@[simp] theorem queueReplay_rescans : (s.queueReplay).rescans = s.rescans := rfl

@[simp] theorem emitPacket_run : (s.emitPacket).run = s.run := rfl

@[simp] theorem emitPacket_state : (s.emitPacket).state = s.state := rfl

@[simp] theorem emitPacket_addr_r : (s.emitPacket).addr_r = s.addr_r := rfl

@[simp] theorem emitPacket_len_r : (s.emitPacket).len_r = s.len_r := rfl

@[simp] theorem emitPacket_rem : (s.emitPacket).rem = s.rem := rfl

@[simp] theorem emitPacket_mbuf : (s.emitPacket).mbuf = s.mbuf := rfl

@[simp] theorem emitPacket_pend : (s.emitPacket).pend = .pkt := rfl

@[simp] theorem emitPacket_erec : (s.emitPacket).erec = s.erec := rfl

@[simp] theorem emitPacket_fbuf : (s.emitPacket).fbuf = s.fbuf := rfl

@[simp] theorem emitPacket_rpl : (s.emitPacket).rpl = s.rpl := rfl

@[simp] theorem emitPacket_cfg : (s.emitPacket).cfg = s.cfg := rfl

@[simp] theorem emitPacket_inputs : (s.emitPacket).inputs = s.inputs := rfl

@[simp] theorem emitPacket_delivered : (s.emitPacket).delivered = s.delivered := rfl

@[simp] theorem emitPacket_encOut : (s.emitPacket).encOut = s.encOut := rfl

@[simp] theorem emitPacket_rescans : (s.emitPacket).rescans = s.rescans := rfl

@[simp] theorem raiseError_run (r : ErrRec) : (s.raiseError r).run = s.run := rfl

@[simp] theorem raiseError_state (r : ErrRec) : (s.raiseError r).state = .seekStart := rfl

@[simp] theorem raiseError_addr_r (r : ErrRec) : (s.raiseError r).addr_r = s.addr_r := rfl

@[simp] theorem raiseError_len_r (r : ErrRec) : (s.raiseError r).len_r = s.len_r := rfl

@[simp] theorem raiseError_rem (r : ErrRec) : (s.raiseError r).rem = s.rem := rfl

@[simp] theorem raiseError_mbuf (r : ErrRec) : (s.raiseError r).mbuf = s.mbuf := rfl

@[simp] theorem raiseError_pend (r : ErrRec) : (s.raiseError r).pend = .err := rfl

@[simp] theorem raiseError_erec (r : ErrRec) : (s.raiseError r).erec = r := rfl

@[simp] theorem raiseError_fbuf (r : ErrRec) : (s.raiseError r).fbuf = s.fbuf := rfl

@[simp] theorem raiseError_rpl (r : ErrRec) : (s.raiseError r).rpl = s.rpl := rfl

@[simp] theorem raiseError_cfg (r : ErrRec) : (s.raiseError r).cfg = s.cfg := rfl

@[simp] theorem raiseError_inputs (r : ErrRec) : (s.raiseError r).inputs = s.inputs := rfl

@[simp] theorem raiseError_delivered (r : ErrRec) : (s.raiseError r).delivered = s.delivered := rfl

@[simp] theorem raiseError_encOut (r : ErrRec) : (s.raiseError r).encOut = s.encOut := rfl

@[simp] theorem raiseError_rescans (r : ErrRec) : (s.raiseError r).rescans = s.rescans := rfl

@[simp] theorem returnFromError_run : (s.returnFromError).run = s.run := rfl

@[simp] theorem returnFromError_state : (s.returnFromError).state = s.state := rfl

@[simp] theorem returnFromError_addr_r : (s.returnFromError).addr_r = s.addr_r := rfl

@[simp] theorem returnFromError_len_r : (s.returnFromError).len_r = s.len_r := rfl

@[simp] theorem returnFromError_rem : (s.returnFromError).rem = s.rem := rfl

@[simp] theorem returnFromError_mbuf : (s.returnFromError).mbuf = s.mbuf := rfl

@[simp] theorem returnFromError_pend : (s.returnFromError).pend = .none := rfl

@[simp] theorem returnFromError_erec : (s.returnFromError).erec = s.erec := rfl

@[simp] theorem returnFromError_fbuf : (s.returnFromError).fbuf = s.fbuf := rfl

@[simp] theorem returnFromError_rpl : (s.returnFromError).rpl = s.rpl := rfl

@[simp] theorem returnFromError_cfg : (s.returnFromError).cfg = s.cfg := rfl

@[simp] theorem returnFromError_inputs : (s.returnFromError).inputs = s.inputs := rfl

@[simp] theorem returnFromError_delivered : (s.returnFromError).delivered = s.delivered ++ [.error s.erec] := rfl

@[simp] theorem returnFromError_encOut : (s.returnFromError).encOut = s.encOut := rfl

@[simp] theorem returnFromError_rescans : (s.returnFromError).rescans = s.rescans := rfl

@[simp] theorem deliverPacket_run (p : Packet) : (s.deliverPacket p).run = s.run := rfl

@[simp] theorem deliverPacket_state (p : Packet) : (s.deliverPacket p).state = s.state := rfl

@[simp] theorem deliverPacket_addr_r (p : Packet) : (s.deliverPacket p).addr_r = s.addr_r := rfl

@[simp] theorem deliverPacket_len_r (p : Packet) : (s.deliverPacket p).len_r = s.len_r := rfl

@[simp] theorem deliverPacket_rem (p : Packet) : (s.deliverPacket p).rem = s.rem := rfl

@[simp] theorem deliverPacket_mbuf (p : Packet) : (s.deliverPacket p).mbuf = s.mbuf := rfl

@[simp] theorem deliverPacket_pend (p : Packet) : (s.deliverPacket p).pend = .none := rfl

@[simp] theorem deliverPacket_erec (p : Packet) : (s.deliverPacket p).erec = s.erec := rfl

@[simp] theorem deliverPacket_fbuf (p : Packet) : (s.deliverPacket p).fbuf = s.fbuf := rfl

@[simp] theorem deliverPacket_rpl (p : Packet) : (s.deliverPacket p).rpl = s.rpl := rfl

@[simp] theorem deliverPacket_cfg (p : Packet) : (s.deliverPacket p).cfg = s.cfg := rfl

@[simp] theorem deliverPacket_inputs (p : Packet) : (s.deliverPacket p).inputs = s.inputs := rfl

@[simp] theorem deliverPacket_delivered (p : Packet) : (s.deliverPacket p).delivered = s.delivered ++ [.packet s.addr_r p] := rfl

@[simp] theorem deliverPacket_encOut (p : Packet) : (s.deliverPacket p).encOut = s.encOut := rfl

@[simp] theorem deliverPacket_rescans (p : Packet) : (s.deliverPacket p).rescans = s.rescans := rfl

@[simp] theorem pastSample_run : (s.pastSample).run = s.run := rfl

@[simp] theorem pastSample_state : (s.pastSample).state = s.state := rfl

@[simp] theorem pastSample_addr_r : (s.pastSample).addr_r = s.addr_r := rfl

@[simp] theorem pastSample_len_r : (s.pastSample).len_r = s.len_r := rfl

@[simp] theorem pastSample_rem : (s.pastSample).rem = s.rem := rfl

@[simp] theorem pastSample_mbuf : (s.pastSample).mbuf = s.mbuf := rfl

@[simp] theorem pastSample_pend : (s.pastSample).pend = s.pend := rfl

@[simp] theorem pastSample_erec : (s.pastSample).erec = s.erec := rfl

@[simp] theorem pastSample_fbuf : (s.pastSample).fbuf = s.fbuf := rfl

@[simp] theorem pastSample_rpl : (s.pastSample).rpl = s.rpl := rfl

@[simp] theorem pastSample_cfg : (s.pastSample).cfg = s.cfg := rfl

@[simp] theorem pastSample_inputs : (s.pastSample).inputs = s.inputs.tail := rfl

@[simp] theorem pastSample_delivered : (s.pastSample).delivered = s.delivered := rfl

@[simp] theorem pastSample_encOut : (s.pastSample).encOut = s.encOut := rfl

@[simp] theorem pastSample_rescans : (s.pastSample).rescans = s.rescans := rfl

/-- The test of the "if RESYNC_MODE = RESCAN" lines. -/
@[simp] theorem rescans_eq_true_iff : s.rescans = true ↔ s.cfg.resync = .rescan := by
  simp [State.rescans]

@[simp] theorem rescans_eq_false_iff : s.rescans = false ↔ s.cfg.resync = .cursor := by
  unfold State.rescans
  cases s.cfg.resync <;> decide

end Sys2Proof.Machine
end

