-- ==== Sys2Proof/Laws/Exec.lean ====
section
/-! SUPPORT. What `exec` and `select` can do, said once: readiness and each enabling condition in the words of the rules, one
equation that splits `exec` into enabling condition and effect, and the inversion of `select`. -/

namespace Sys2Proof.Machine

/-! ### Enabling conditions -/

theorem rx_ready_eq_true_iff (s : State) : s.rx_ready = true ↔ s.takesInput := by
  unfold State.rx_ready State.takesInput
  simp [and_assoc]

theorem rx_ready_eq_false_iff (s : State) : s.rx_ready = false ↔ ¬s.takesInput := by
  rw [← rx_ready_eq_true_iff]
  simp

theorem replayReady_eq_true_iff (s : State) :
    s.replayReady = true ↔ s.cfg.resync = .rescan ∧ s.run = .running ∧ s.pend = .none ∧ s.rpl ≠ [] := by
  unfold State.replayReady
  simp [and_assoc]

/-- Readiness and a replay exclude each other (R174). -/
theorem not_takesInput_of_replayReady {s : State} (h : s.replayReady = true) : ¬s.takesInput := by
  rw [replayReady_eq_true_iff] at h
  rintro ⟨-, -, hc | hq⟩
  · rw [h.1] at hc; cases hc
  · exact h.2.2.2 hq

/-- An event operation is enabled when the input side is ready and its row applies. -/
theorem enabled_event_iff {i : Instr} (s : State) (h : formatOf i = .evt10) :
    enabled i s = true ↔ s.takesInput ∧ i.selectedIn s.context = true := by
  simp [enabled, h, rx_ready_eq_true_iff]

theorem enabled_start_iff (p e : Bool) (s : State) : enabled (.start p e) s = true ↔ s.run = .idle := by
  simp [enabled, formatOf, Instr.selectedIn, State.context]

theorem enabled_pktAccept_iff (a e : Bool) (s : State) : enabled (.pktAccept a e) s = true ↔ s.pend = .pkt := by
  simp [enabled, formatOf, Instr.selectedIn, State.context]

theorem enabled_errAccept_iff (a p : Bool) (s : State) : enabled (.errAccept a p) s = true ↔ s.pend = .err := by
  simp [enabled, formatOf, Instr.selectedIn, State.context]

theorem enabled_replayByte_iff (s : State) :
    enabled .replayByte s = true ↔ s.cfg.resync = .rescan ∧ s.run = .running ∧ s.pend = .none ∧ s.rpl ≠ [] := by
  simp only [enabled, formatOf]
  exact replayReady_eq_true_iff s

@[simp] theorem whenEnabled_of_enabled {i : Instr} {s : State} (r : Result) (h : enabled i s = true) :
    whenEnabled i s r = r := by
  simp [whenEnabled, h]

@[simp] theorem whenEnabled_of_disabled {i : Instr} {s : State} (r : Result) (h : enabled i s = false) :
    whenEnabled i s r = .next s := by
  simp [whenEnabled, h]

/-! ### exec as enabling condition and effect -/

/-- The effect of an operation whose enabling condition holds. -/
def effect (i : Instr) (s : State) : Result :=
  match i with
  | .seekSkip b => seekSkipEffect b s
  | .seekSync => seekSyncEffect s
  | .seekEos x => seekEosEffect x s
  | .addrLatch b => addrLatchEffect b s
  | .lenAccept b => lenAcceptEffect b s
  | .lenReject b => lenRejectEffect b s
  | .msgStore b => msgStoreEffect b s
  | .chkPass b => chkPassEffect b s
  | .chkFail b => chkFailEffect b s
  | .frameEos x => frameEosEffect x s
  | .transportError c => transportErrorEffect c s
  | .rsvKind x => execRsvKind x s
  | .reset st pr er => execReset st pr er s
  | .start _ _ => startEffect s
  | .pktAccept _ _ => pktAcceptEffect s
  | .errAccept _ _ => errAcceptEffect s
  | .replayByte => replayByteEffect s
  | .enc a t p => execEnc a t p s

/-- An enabled operation has its effect. -/
theorem exec_of_enabled {i : Instr} {s : State} (h : enabled i s = true) : exec i s = effect i s := by
  cases i <;> first | rfl | exact whenEnabled_of_enabled _ h

/-- An operation that answers a next state was enabled and had its effect, or changed nothing. -/
theorem exec_next_cases {i : Instr} {s t : State} (h : exec i s = .next t) :
    (enabled i s = true ∧ effect i s = .next t) ∨ (enabled i s = false ∧ t = s) := by
  cases he : enabled i s with
  | true => exact .inl ⟨rfl, exec_of_enabled he ▸ h⟩
  | false =>
    refine .inr ⟨rfl, ?_⟩
    cases i with
    | rsvKind x => cases h
    | reset a b c => simp [enabled, formatOf, Instr.selectedIn] at he
    | enc a t p => simp [enabled, formatOf] at he
    | _ => exact (Host.Outcome.next.inj ((whenEnabled_of_disabled _ he).symm.trans h)).symm

/-- A byte's effect is the effect of the operation R89's BYTE rows select. -/
theorem byteEffect_eq_effect (b : Byte) (s : State) : byteEffect b s = effect (decodeByte s.context b) s := by
  unfold byteEffect decodeByte State.context
  cases s.state <;> simp only [effect] <;> split <;> simp_all

theorem byteEffect_seekStart {s : State} (h : s.state = .seekStart) (b : Byte) :
    byteEffect b s = if b = START_BYTE then seekSyncEffect s else seekSkipEffect b s := by
  simp only [byteEffect, h]

theorem byteEffect_readAddress {s : State} (h : s.state = .readAddress) (b : Byte) :
    byteEffect b s = addrLatchEffect b s := by
  simp only [byteEffect, h]

theorem byteEffect_readLength {s : State} (h : s.state = .readLength) (b : Byte) :
    byteEffect b s = if 1 ≤ b.toNat ∧ b.toNat ≤ s.cfg.maxLen.val then lenAcceptEffect b s else lenRejectEffect b s := by
  simp only [byteEffect, h]

theorem byteEffect_readMessage {s : State} (h : s.state = .readMessage) (b : Byte) :
    byteEffect b s = msgStoreEffect b s := by
  simp only [byteEffect, h]

theorem byteEffect_readChecksum {s : State} (h : s.state = .readChecksum) (b : Byte) :
    byteEffect b s = if s.checksum = some b then chkPassEffect b s else chkFailEffect b s := by
  simp only [byteEffect, h]

/-- What MSG.STORE's effect can answer: the byte is stored inside the buffer. -/
theorem msgStoreEffect_next {b : Byte} {s t : State} (h : msgStoreEffect b s = .next t) :
    s.received.toNat < s.cfg.maxLen.val ∧
      t = { s.logByte b with
        mbuf := s.mbuf.write s.received.toNat b
        rem := s.rem - 1
        state := if s.rem - 1 = 0 then .readChecksum else .readMessage } := by
  unfold msgStoreEffect at h
  split at h
  · next hlt => cases h; exact ⟨hlt, rfl⟩
  · cases h

/-- What CHK.FAIL's effect can answer: the expected checksum exists, and the record holds it. -/
theorem chkFailEffect_next {b : Byte} {s t : State} (h : chkFailEffect b s = .next t) :
    ∃ c, s.checksum = some c ∧
      t = (s.logByte b).queueReplay.raiseError
        { ErrRec.zero with
          e_kind := .checksumMismatch, e_state := .readChecksum, e_addr := s.addr_r, e_len := s.len_r, e_count := s.len_r,
          e_got := b, e_exp := c } := by
  unfold chkFailEffect at h
  split at h
  · cases h
  · next c hc => cases h; exact ⟨c, hc, rfl⟩

/-- What PKT.ACCEPT's effect can answer: the packet exists, and it is delivered. -/
theorem pktAcceptEffect_next {s t : State} (h : pktAcceptEffect s = .next t) :
    ∃ p, s.packet = some p ∧ t = s.deliverPacket p := by
  unfold pktAcceptEffect at h
  split at h
  · cases h
  · next p hp => cases h; exact ⟨p, hp, rfl⟩

/-- What no byte's effect changes: lifecycle, parameters, pins, deliveries and ENC's result. -/
theorem byteEffect_frame {b : Byte} {s t : State} (h : byteEffect b s = .next t) :
    t.run = s.run ∧ t.cfg = s.cfg ∧ t.inputs = s.inputs ∧ t.delivered = s.delivered ∧ t.encOut = s.encOut := by
  unfold byteEffect at h
  split at h
  · split at h <;> cases h <;> simp
  · cases h; simp
  · split at h <;> cases h <;> simp
  · obtain ⟨-, rfl⟩ := msgStoreEffect_next h; simp
  · split at h
    · cases h; simp
    · obtain ⟨c, -, rfl⟩ := chkFailEffect_next h; simp

/-- The checksum of a Message that the buffer holds. -/
theorem checksum_of_holdsMessage {s : State} {m : List Byte} (h : s.holdsMessage m) :
    s.checksum = some (chk s.cfg.chk s.addr_r s.len_r m) := by
  simp only [State.checksum, (message_eq_some_iff s m).mpr h]

/-- The bytes received, when no more are left to read than there are. -/
theorem received_toNat {s : State} (h : s.rem.toNat ≤ s.len_r.toNat) :
    s.received.toNat = s.len_r.toNat - s.rem.toNat :=
  BitVec.toNat_sub_of_le h

/-! ### Selection -/

/-- Every operation the pins and the registers select is enabled at those pins. -/
theorem selectedIn_decodeByte (c : Context) (b : Byte) : (decodeByte c b).selectedIn c = true := by
  unfold decodeByte
  cases hs : c.state <;> simp only []
  · split <;> simp_all [Instr.selectedIn]
  · simp [Instr.selectedIn, hs]
  · split
    · next h => simp [Instr.selectedIn, hs, h.1, h.2]
    · next h =>
      simp only [Instr.selectedIn, hs, Bool.and_eq_true, Bool.or_eq_true, beq_iff_eq, decide_eq_true_eq, true_and]
      by_cases hb : b = 0
      · exact .inl hb
      · refine .inr ?_
        have : b.toNat ≠ 0 := fun h0 => hb (BitVec.eq_of_toNat_eq (by simpa using h0))
        omega
  · simp [Instr.selectedIn, hs]
  · split <;> simp_all [Instr.selectedIn]

theorem selectedIn_decodeEvent (c : Context) (ew : EventWord) : (decodeEvent c ew).selectedIn c = true := by
  rcases eventWord_cases ew with ⟨b, rfl⟩ | ⟨b, rfl⟩ | ⟨b, rfl⟩ | ⟨b, rfl⟩
  · simpa using selectedIn_decodeByte c b
  · rw [decodeEvent_eos]
    split <;> simp_all [Instr.selectedIn]
  · simp [Instr.selectedIn]
  · simp [Instr.selectedIn]

theorem formatOf_decodeEvent (c : Context) (ew : EventWord) : formatOf (decodeEvent c ew) = .evt10 := by
  rcases eventWord_cases ew with ⟨b, rfl⟩ | ⟨b, rfl⟩ | ⟨b, rfl⟩ | ⟨b, rfl⟩
  · rw [decodeEvent_byte]
    unfold decodeByte
    cases c.state <;> simp only [] <;> (try split) <;> rfl
  · rw [decodeEvent_eos]
    split <;> rfl
  · simp [formatOf]
  · simp [formatOf]

theorem encode_decodeEvent (c : Context) (ew : EventWord) : encode (decodeEvent c ew) = some (.event ew) := by
  rcases eventWord_cases ew with ⟨b, rfl⟩ | ⟨b, rfl⟩ | ⟨b, rfl⟩ | ⟨b, rfl⟩
  · rw [decodeEvent_byte]
    unfold decodeByte
    cases c.state <;> simp only [] <;> (try split) <;> simp_all [encode]
  · rw [decodeEvent_eos]
    split <;> rfl
  · simp [encode]
  · simp [encode]

/-- What a control vector can select, and when it selects nothing. -/
theorem decodeControl_cases (c : Context) (cv : ControlVector) :
    (cv.getLsbD 3 = true ∧ decodeControl c cv = .ok (.reset (cv.getLsbD 2) (cv.getLsbD 1) (cv.getLsbD 0))) ∨
    (cv.getLsbD 3 = false ∧ cv.getLsbD 2 = true ∧ c.run = .idle ∧
      decodeControl c cv = .ok (.start (cv.getLsbD 1) (cv.getLsbD 0))) ∨
    (cv.getLsbD 3 = false ∧ ¬(cv.getLsbD 2 = true ∧ c.run = .idle) ∧ cv.getLsbD 1 = true ∧ c.pend = .pkt ∧
      decodeControl c cv = .ok (.pktAccept (cv.getLsbD 2) (cv.getLsbD 0))) ∨
    (cv.getLsbD 3 = false ∧ ¬(cv.getLsbD 2 = true ∧ c.run = .idle) ∧ cv.getLsbD 0 = true ∧ c.pend = .err ∧
      decodeControl c cv = .ok (.errAccept (cv.getLsbD 2) (cv.getLsbD 1))) ∨
    (cv.getLsbD 3 = false ∧ ¬(cv.getLsbD 2 = true ∧ c.run = .idle) ∧ ¬(cv.getLsbD 1 = true ∧ c.pend = .pkt) ∧
      ¬(cv.getLsbD 0 = true ∧ c.pend = .err) ∧ decodeControl c cv = .error .nothingSelected) := by
  unfold decodeControl
  cases cv.getLsbD 3 <;> cases cv.getLsbD 2 <;> cases cv.getLsbD 1 <;> cases cv.getLsbD 0 <;>
    cases c.run <;> cases c.pend <;> simp

/-- The inversion of `select`: the operation of an edge, and why none before it in R232's order was taken. -/
theorem select_cases (x : Sample) (s : State) :
    (x.cv.getLsbD 3 = true ∧ select x s = some (.reset (x.cv.getLsbD 2) (x.cv.getLsbD 1) (x.cv.getLsbD 0))) ∨
    (x.cv.getLsbD 3 = false ∧ x.cv.getLsbD 2 = true ∧ s.run = .idle ∧
      select x s = some (.start (x.cv.getLsbD 1) (x.cv.getLsbD 0))) ∨
    (x.cv.getLsbD 3 = false ∧ ¬(x.cv.getLsbD 2 = true ∧ s.run = .idle) ∧ x.cv.getLsbD 1 = true ∧ s.pend = .pkt ∧
      select x s = some (.pktAccept (x.cv.getLsbD 2) (x.cv.getLsbD 0))) ∨
    (x.cv.getLsbD 3 = false ∧ ¬(x.cv.getLsbD 2 = true ∧ s.run = .idle) ∧ x.cv.getLsbD 0 = true ∧ s.pend = .err ∧
      select x s = some (.errAccept (x.cv.getLsbD 2) (x.cv.getLsbD 1))) ∨
    (x.cv.getLsbD 3 = false ∧ ¬(x.cv.getLsbD 2 = true ∧ s.run = .idle) ∧ ¬(x.cv.getLsbD 1 = true ∧ s.pend = .pkt) ∧
      ¬(x.cv.getLsbD 0 = true ∧ s.pend = .err) ∧
      ((s.replayReady = true ∧ select x s = some .replayByte) ∨
       (s.replayReady = false ∧ x.rx_valid = true ∧ s.takesInput ∧ select x s = some (decodeEvent s.context x.ew)) ∨
       (s.replayReady = false ∧ ¬(x.rx_valid = true ∧ s.takesInput) ∧ select x s = none))) := by
  have hc := decodeControl_cases s.context x.cv
  simp only [show s.context.run = s.run from rfl, show s.context.pend = s.pend from rfl] at hc
  rcases hc with ⟨h3, h⟩ | ⟨h3, h2, hr, h⟩ | ⟨h3, h2, h1, hp, h⟩ | ⟨h3, h2, h0, hp, h⟩ | ⟨h3, h2, h1, h0, h⟩
  · exact .inl ⟨h3, by simp [select, h]⟩
  · exact .inr (.inl ⟨h3, h2, hr, by simp [select, h]⟩)
  · exact .inr (.inr (.inl ⟨h3, h2, h1, hp, by simp [select, h]⟩))
  · exact .inr (.inr (.inr (.inl ⟨h3, h2, h0, hp, by simp [select, h]⟩)))
  · refine .inr (.inr (.inr (.inr ⟨h3, h2, h1, h0, ?_⟩)))
    cases hrep : s.replayReady with
    | true => exact .inl ⟨rfl, by simp [select, h, hrep]⟩
    | false =>
      by_cases hv : x.rx_valid = true ∧ s.takesInput
      · have := (rx_ready_eq_true_iff s).mpr hv.2
        exact .inr (.inl ⟨rfl, hv.1, hv.2, by simp [select, h, hrep, hv.1, this]⟩)
      · refine .inr (.inr ⟨rfl, hv, ?_⟩)
        rw [← rx_ready_eq_true_iff] at hv
        have hb : (x.rx_valid && s.rx_ready) = false := by
          cases hx : x.rx_valid <;> cases hy : s.rx_ready <;> simp_all
        simp [select, h, hrep, hb]

/-- What the step selects is enabled. -/
theorem enabled_of_select {x : Sample} {s : State} {i : Instr} (h : select x s = some i) : enabled i s = true := by
  rcases select_cases x s with
    ⟨-, hs⟩ | ⟨-, -, hr, hs⟩ | ⟨-, -, -, hp, hs⟩ | ⟨-, -, -, hp, hs⟩ | ⟨-, -, -, -, ⟨hr, hs⟩ | ⟨-, -, ht, hs⟩ | ⟨-, -, hs⟩⟩ <;>
    rw [hs] at h <;> cases h
  · rfl
  · exact (enabled_start_iff ..).mpr hr
  · exact (enabled_pktAccept_iff ..).mpr hp
  · exact (enabled_errAccept_iff ..).mpr hp
  · simpa [enabled, formatOf] using hr
  · exact (enabled_event_iff s (formatOf_decodeEvent _ _)).mpr ⟨ht, selectedIn_decodeEvent _ _⟩

/-- The pins of a step are no part of an enabling condition. -/
@[simp] theorem enabled_pastSample (i : Instr) (s : State) : enabled i s.pastSample = enabled i s := rfl

end Sys2Proof.Machine
end

