-- ==== Sys2Proof/Laws/PerInstr.lean ====
section
/-! SUPPORT. The family TableRow: the encoder agrees with the match and mask of every row of spec/opcode_table.json. The
masks and matches are written out from the table; the encoder is written from the patterns. -/

namespace Sys2Proof.Laws.TableRow

/-- A row's word: its width, mask and match, as spec/opcode_table.json gives them (none where they are null). -/
def row : Instr → Option (Nat × Nat × Nat)
  | .seekSkip _ => some (10, 0x300, 0x000)
  | .seekSync => some (10, 0x3FF, 0x0FF)
  | .seekEos _ => some (10, 0x300, 0x100)
  | .addrLatch _ => some (10, 0x300, 0x000)
  | .lenAccept _ => some (10, 0x300, 0x000)
  | .lenReject _ => some (10, 0x300, 0x000)
  | .msgStore _ => some (10, 0x300, 0x000)
  | .chkPass _ => some (10, 0x300, 0x000)
  | .chkFail _ => some (10, 0x300, 0x000)
  | .frameEos _ => some (10, 0x300, 0x100)
  | .transportError _ => some (10, 0x300, 0x200)
  | .rsvKind _ => some (10, 0x300, 0x300)
  | .reset _ _ _ => some (4, 0x8, 0x8)
  | .start _ _ => some (4, 0xC, 0x4)
  | .pktAccept _ _ => some (4, 0xA, 0x2)
  | .errAccept _ _ => some (4, 0x9, 0x1)
  | .replayByte => none
  | .enc _ _ _ => none

/-- A word matches a row of its width. -/
def fits : Option TableWord → Option (Nat × Nat × Nat) → Bool
  | some (.event ew), some (w, mask, mtch) => w == 10 && (ew &&& BitVec.ofNat 10 mask) == BitVec.ofNat 10 mtch
  | some (.control cv), some (w, mask, mtch) => w == 4 && (cv &&& BitVec.ofNat 4 mask) == BitVec.ofNat 4 mtch
  | none, none => true
  | _, _ => false

/-- The encoded word lies in the instruction's row. -/
def Statement (i : Instr) : Prop := fits (encode i) (row i) = true

/-- An event word masked to its kind is the word of that kind with data 0, so it fits a row that fixes the kind alone. -/
theorem event_fits (k : BitVec 2) (b : Byte) {mtch : Nat} (h : eventWord k 0 = BitVec.ofNat 10 mtch) :
    fits (some (.event (eventWord k b))) (some (10, 0x300, mtch)) = true := by
  have hmask : eventWord k b &&& BitVec.ofNat 10 0x300 = eventWord k 0 := by
    refine (BitVec.and_append (x₁ := k) (x₂ := 3#2) (y₁ := b) (y₂ := 0#8)).trans ?_
    unfold eventWord
    congr 1
    · clear h; revert k; decide
    · simp
  simp only [fits, hmask, h]
  simp

theorem seekSkip (b : Byte) : Statement (.seekSkip b) := event_fits 0 b rfl

theorem seekSync : Statement .seekSync := rfl

theorem seekEos (x : Byte) : Statement (.seekEos x) := event_fits 1 x rfl

theorem addrLatch (b : Byte) : Statement (.addrLatch b) := event_fits 0 b rfl

theorem lenAccept (b : Byte) : Statement (.lenAccept b) := event_fits 0 b rfl

theorem lenReject (b : Byte) : Statement (.lenReject b) := event_fits 0 b rfl

theorem msgStore (b : Byte) : Statement (.msgStore b) := event_fits 0 b rfl

theorem chkPass (b : Byte) : Statement (.chkPass b) := event_fits 0 b rfl

theorem chkFail (b : Byte) : Statement (.chkFail b) := event_fits 0 b rfl

theorem frameEos (x : Byte) : Statement (.frameEos x) := event_fits 1 x rfl

theorem transportError (c : Byte) : Statement (.transportError c) := event_fits 2 c rfl

theorem rsvKind (x : Byte) : Statement (.rsvKind x) := event_fits 3 x rfl

theorem reset (s p e : Bool) : Statement (.reset s p e) := by
  cases s <;> cases p <;> cases e <;> rfl

theorem start (p e : Bool) : Statement (.start p e) := by
  cases p <;> cases e <;> rfl

theorem pktAccept (s e : Bool) : Statement (.pktAccept s e) := by
  cases s <;> cases e <;> rfl

theorem errAccept (s p : Bool) : Statement (.errAccept s p) := by
  cases s <;> cases p <;> rfl

theorem replayByte : Statement .replayByte := rfl

theorem enc (a t : Byte) (p : List Byte) : Statement (.enc a t p) := rfl

end Sys2Proof.Laws.TableRow
end

