-- ==== Sys2Proof/Laws/Run.lean ====
section
/-! SUPPORT. What one step and several steps can do: the step as the selected operation, a run cut at its first step, and the
induction over a run. -/

namespace Sys2Proof.Machine

/-- A step that answers a next state ran the selected operation, or nothing was selected. -/
theorem step_next_cases {s t : State} (h : step s = .next t) :
    (∃ i, select s.sample s = some i ∧ enabled i s = true ∧ effect i s.pastSample = .next t) ∨
      (select s.sample s = none ∧ t = s.pastSample) := by
  unfold step at h
  cases hs : select s.sample s with
  | none => rw [hs] at h; cases h; exact .inr ⟨rfl, rfl⟩
  | some i =>
    rw [hs] at h
    have he := enabled_of_select hs
    exact .inl ⟨i, rfl, he, by rw [← exec_of_enabled (s := s.pastSample) he]; exact h⟩

/-- The step of a state whose pins select the operation `i`. -/
theorem step_of_select {s : State} {i : Instr} (h : select s.sample s = some i) : step s = effect i s.pastSample := by
  unfold step
  rw [h]
  exact exec_of_enabled (s := s.pastSample) (enabled_of_select h)

@[simp] theorem steps_zero (s : State) : steps 0 s = .next s := rfl

/-- A run of n + 1 steps from a state that steps on is a run of n steps from there. -/
theorem steps_succ_of_step {n : Nat} {s t : State} (h : step s = .next t) : steps (n + 1) s = steps n t := by
  have hc : Sys2Proof.core.step s = .next t := h
  simp only [steps, Host.Core.run, hc]
  rfl

/-- A run of n + 1 steps that answers a next state steps on first. -/
theorem steps_succ_cases {n : Nat} {s t : State} (h : steps (n + 1) s = .next t) :
    ∃ u, step s = .next u ∧ steps n u = .next t := by
  cases hs : step s with
  | next u => exact ⟨u, rfl, steps_succ_of_step hs ▸ h⟩
  | fault f =>
    have hc : Sys2Proof.core.step s = .fault f := hs
    simp only [steps, Host.Core.run, hc] at h
    cases h
  | refused r =>
    have hc : Sys2Proof.core.step s = .refused r := hs
    simp only [steps, Host.Core.run, hc] at h
    cases h

/-- A run of m + n steps is a run of m steps and then one of n. -/
theorem steps_add {m n : Nat} {s t : State} (h : steps m s = .next t) : steps (m + n) s = steps n t := by
  induction m generalizing s with
  | zero => cases h; rw [Nat.zero_add]
  | succ m ih =>
    obtain ⟨u, hu, h⟩ := steps_succ_cases h
    rw [show m + 1 + n = m + n + 1 by omega, steps_succ_of_step hu]
    exact ih h

/-- What every step keeps, every run keeps. -/
theorem steps_induction {P : State → Prop} (hstep : ∀ s t, P s → step s = .next t → P t) {n : Nat} {s t : State} (hs : P s)
    (h : steps n s = .next t) : P t := by
  induction n generalizing s with
  | zero => cases h; exact hs
  | succ n ih =>
    obtain ⟨u, hu, h⟩ := steps_succ_cases h
    exact ih (hstep s u hs hu) h

/-- A byte on the pins of a block that takes input performs its operation. -/
theorem step_byte {s : State} (b : Byte) (l : List Sample) (ht : s.takesInput) :
    step { s with inputs := Sample.ofByte b :: l } = byteEffect b { s with inputs := l } := by
  have hd : decodeControl s.context 0#4 = .error .nothingSelected := by simp [decodeControl]
  have hr : s.replayReady = false := by
    cases h : s.replayReady
    · rfl
    · exact absurd ht (not_takesInput_of_replayReady h)
  have hsel : select (Sample.ofByte b) s = some (decodeByte s.context b) := by
    simp [select, hd, hr, Sample.ofByte, Sample.ofEvent, (rx_ready_eq_true_iff s).mpr ht]
  rw [step_of_select (s := { s with inputs := Sample.ofByte b :: l }) (i := decodeByte s.context b) hsel, byteEffect_eq_effect]
  rfl

/-- What both consumers' readiness selects: the acceptance of what is pending, else nothing. -/
theorem decodeControl_accept (c : Context) :
    decodeControl c (controlVector false false true true) =
      match c.pend with
      | .none => .error .nothingSelected
      | .pkt => .ok (.pktAccept false true)
      | .err => .ok (.errAccept false true) := by
  cases hp : c.pend <;> simp [decodeControl, hp]

/-- Accepting pins deliver a pending packet. -/
theorem step_accept_packet {s : State} {ty : Byte} {p : List Byte} (l : List Sample) (hp : s.pend = .pkt)
    (hm : s.holdsMessage (ty :: p)) :
    step { s with inputs := Sample.accept :: l } =
      .next { s with
        inputs := l, pend := .none, delivered := s.delivered ++ [.packet s.addr_r { messageType := ty, payload := p }] } := by
  have hd := decodeControl_accept s.context
  rw [show s.context.pend = .pkt from hp] at hd
  have hsel : select Sample.accept s = some (.pktAccept false true) := by simp [select, Sample.accept, Sample.ofControl, hd]
  rw [step_of_select (s := { s with inputs := Sample.accept :: l }) (i := .pktAccept false true) hsel]
  simp only [effect, pktAcceptEffect]
  rw [packet_of_holdsMessage (s := State.pastSample { s with inputs := Sample.accept :: l }) hm]
  rfl

/-- Accepting pins deliver a pending error. -/
theorem step_accept_error {s : State} (l : List Sample) (hp : s.pend = .err) :
    step { s with inputs := Sample.accept :: l } =
      .next { s with inputs := l, pend := .none, delivered := s.delivered ++ [.error s.erec] } := by
  have hd := decodeControl_accept s.context
  rw [show s.context.pend = .err from hp] at hd
  have hsel : select Sample.accept s = some (.errAccept false true) := by simp [select, Sample.accept, Sample.ofControl, hd]
  rw [step_of_select (s := { s with inputs := Sample.accept :: l }) (i := .errAccept false true) hsel]
  rfl

/-! ### The pins to come, and the run of Machine/Run.lean -/

/-- No byte's effect reads the pins to come. -/
theorem byteEffect_inputs {b : Byte} {s t : State} (l : List Sample) (h : byteEffect b s = .next t) :
    byteEffect b { s with inputs := l } = .next { t with inputs := l } := by
  have hc : State.checksum { s with inputs := l } = s.checksum := rfl
  obtain ⟨st, hs⟩ : ∃ st, s.state = st := ⟨_, rfl⟩
  have hl : State.state { s with inputs := l } = st := hs
  cases st
  · rw [byteEffect_seekStart hs] at h
    rw [byteEffect_seekStart hl]
    split at h <;> rename_i hb <;> cases h
    · rw [if_pos hb]; rfl
    · rw [if_neg hb]; rfl
  · rw [byteEffect_readAddress hs] at h
    rw [byteEffect_readAddress hl]
    cases h; rfl
  · rw [byteEffect_readLength hs] at h
    rw [byteEffect_readLength hl]
    split at h <;> rename_i hb <;> cases h
    · rw [if_pos hb]; rfl
    · rw [if_neg hb]; rfl
  · rw [byteEffect_readMessage hs] at h
    rw [byteEffect_readMessage hl]
    obtain ⟨hlt, rfl⟩ := msgStoreEffect_next h
    exact if_pos hlt
  · rw [byteEffect_readChecksum hs] at h
    rw [byteEffect_readChecksum hl, hc]
    split at h
    · rename_i hb
      cases h; rw [if_pos hb]; rfl
    · rename_i hb
      obtain ⟨c, hck, rfl⟩ := chkFailEffect_next h
      rw [if_neg hb]
      unfold chkFailEffect
      rw [hc, hck]
      rfl

/-- No effect reads the pins to come. -/
theorem effect_inputs {i : Instr} {s t : State} (l : List Sample) (h : effect i s = .next t) :
    effect i { s with inputs := l } = .next { t with inputs := l } := by
  cases i with
  | msgStore b =>
    obtain ⟨hlt, rfl⟩ := msgStoreEffect_next h
    exact if_pos hlt
  | chkFail b =>
    obtain ⟨c, hck, rfl⟩ := chkFailEffect_next h
    have hl : State.checksum { s with inputs := l } = some c := hck
    simp only [effect, chkFailEffect, hl]
    rfl
  | rsvKind x => cases h
  | pktAccept a e =>
    obtain ⟨p, hp, rfl⟩ := pktAcceptEffect_next h
    have hl : State.packet { s with inputs := l } = some p := hp
    simp only [effect, pktAcceptEffect, hl]
    rfl
  | replayByte =>
    simp only [effect, replayByteEffect] at h ⊢
    split at h
    · rename_i hq
      cases h
      rw [hq]
    · exact byteEffect_inputs l h
  | _ => cases h; rfl

/-- A step reads the first pins only: what follows them stays. -/
theorem step_inputs {s t : State} {x : Sample} (l : List Sample) (h : step { s with inputs := [x] } = .next t) :
    step { s with inputs := x :: l } = .next { t with inputs := l } := by
  rcases step_next_cases h with ⟨i, hs, -, he⟩ | ⟨hs, rfl⟩
  · rw [step_of_select (s := { s with inputs := x :: l }) (i := i) hs]
    have hl := effect_inputs l he
    exact hl
  · have hl : select x s = none := hs
    show (match select x s with | some i => _ | none => _) = _
    rw [hl]
    rfl

/-- A run that has ended goes no further. -/
theorem runFor_of_ended {n : Nat} {e : Environment} {s : State} (h : runEnded e s = true) :
    runFor n e s = .next (e, s) := by
  cases n <;> simp [runFor, h]

/-- A run that has not ended takes a step. -/
theorem runFor_succ_of_step {n : Nat} {e : Environment} {s t : State} (h : runEnded e s = false)
    (hs : step { s with inputs := [e.pins] } = .next t) : runFor (n + 1) e s = runFor n (e.past s) t := by
  simp [runFor, h, hs]

/-- What a run of n + 1 edges did first: it had ended, or it stepped on. -/
theorem runFor_succ_cases {n : Nat} {e f : Environment} {s t : State} (h : runFor (n + 1) e s = .next (f, t)) :
    (runEnded e s = true ∧ f = e ∧ t = s) ∨
      (runEnded e s = false ∧ ∃ u, step { s with inputs := [e.pins] } = .next u ∧ runFor n (e.past s) u = .next (f, t)) := by
  cases he : runEnded e s with
  | true =>
    rw [runFor_of_ended he] at h
    cases h
    exact .inl ⟨rfl, rfl, rfl⟩
  | false =>
    refine .inr ⟨rfl, ?_⟩
    cases hs : step { s with inputs := [e.pins] } with
    | next u => exact ⟨u, rfl, by rw [← runFor_succ_of_step he hs]; exact h⟩
    | fault r => simp [runFor, he, hs] at h
    | refused r => simp [runFor, he, hs] at h

end Sys2Proof.Machine
end

