-- ==== Sys2Proof/Tests/Slice0.lean ====
section
/-! SUPPORT. Tests of the model, and for every obligation with hypotheses a witness that meets them.

Words are written out bit by bit from spec/opcode_table.json; expected results are the worked examples of the operation
rules and 95_test_vectors.md, named in each docstring. -/

namespace Sys2Proof.Tests

open Sys2Proof Sys2Proof.Machine

/-! ### Parameters and small states -/

def params (n : Nat) (h : 1 ≤ n ∧ n ≤ 255) (m : ResyncMode) : Params :=
  { maxLen := { val := n, pos := h.1, le := h.2 }, chk := .reference, resync := m }

/-- `MAX_LEN` = 16, CURSOR. -/
def p16 : Params := params 16 (by decide) .cursor

/-- `MAX_LEN` = 16, RESCAN. -/
def p16r : Params := params 16 (by decide) .rescan

/-- `MAX_LEN` = 4, RESCAN. -/
def p4r : Params := params 4 (by decide) .rescan

/-- After RESET, with the given parameters. -/
def idle (p : Params) : State := { State.reset with cfg := p }

/-- After START. -/
def seeking (p : Params) : State := { idle p with run := .running }

/-- The log of a frame so far, in RESCAN mode. -/
def logged (p : Params) (l : List Byte) : List Byte := if p.resync = .rescan then l else []

/-- After FF. -/
def inAddress (p : Params) : State := { seeking p with state := .readAddress }

/-- After FF a. -/
def inLength (p : Params) (a : Byte) : State :=
  { seeking p with state := .readLength, addr_r := a, fbuf := logged p [a] }

/-- After FF 02 04. -/
def inMessage (p : Params) : State :=
  { seeking p with state := .readMessage, addr_r := 0x02, len_r := 4, rem := 4, fbuf := logged p [0x02, 0x04] }

/-- After FF 02 04 1B 01 01. -/
def inLastMessage (p : Params) : State :=
  { inMessage p with rem := 1, mbuf := [(0, 0x1B), (1, 0x01), (2, 0x01)], fbuf := logged p [0x02, 0x04, 0x1B, 0x01, 0x01] }

/-- After FF 02 04 1B 01 01 01, the header and Message of Scenario A. -/
def inChecksum (p : Params) : State :=
  { inMessage p with
    state := .readChecksum
    rem := 0
    mbuf := [(0, 0x1B), (1, 0x01), (2, 0x01), (3, 0x01)]
    fbuf := logged p [0x02, 0x04, 0x1B, 0x01, 0x01, 0x01] }

/-- After FF FF 01 FF (R132 corner c). -/
def inChecksumOfOnes (p : Params) : State :=
  { seeking p with state := .readChecksum, addr_r := 0xFF, len_r := 1, mbuf := [(0, 0xFF)], fbuf := logged p [0xFF, 0x01, 0xFF] }

/-- After FF 02 04 1B 01 01 01 DD: Scenario A's packet is pending. -/
def packetPending (p : Params) : State := { inChecksum p with state := .seekStart, pend := .pkt, fbuf := [] }

/-- An EOS has been consumed in SEEK_START. -/
def errorPending (p : Params) : State := { seeking p with pend := .err, erec := { ErrRec.zero with e_kind := .startNotFound } }

/-- A TERR has been consumed in SEEK_START. -/
def terminated (p : Params) : State :=
  { seeking p with run := .terminated, pend := .err, erec := { ErrRec.zero with e_kind := .transportError, e_tcode := 0x09 } }

/-- FF, then EOS. -/
def truncatedPending (p : Params) : State :=
  { errorPending p with erec := { ErrRec.zero with e_kind := .length, e_cause := .truncated, e_state := .readAddress } }

/-- After TERR in SEEK_START and its acceptance. -/
def delivered (p : Params) : State := { terminated p with pend := .none }

/-- R173's worked example: the queue holds 02 FF. -/
def replaying : State := { seeking p16r with rpl := [0x02, 0xFF] }

/-- The state with the given pins in the coming step. -/
def pins (s : State) (x : Sample) : State := { s with inputs := [x] }

/-- A field of the next state. -/
def after {α : Type} (r : Result) (f : State → α) : Option α :=
  match r with
  | .next s => some (f s)
  | .fault _ => none
  | .refused _ => none

/-- The refusal of a step. -/
def refusal (r : Result) : Option Refusal :=
  match r with
  | .next _ => none
  | .fault _ => none
  | .refused x => some x

/-! ### WellFormed refuses an ill-formed term for each check -/

theorem test_wf_seekSkip : (Instr.seekSkip 0xFF).wellFormed p16 = false := by decide

theorem test_wf_lenAccept_zero : (Instr.lenAccept 0x00).wellFormed p16 = false := by decide

theorem test_wf_lenAccept_above : (Instr.lenAccept 0x11).wellFormed p16 = false := by decide

theorem test_wf_lenReject_inRange : (Instr.lenReject 0x10).wellFormed p16 = false := by decide

theorem test_wf_replayByte_cursor : Instr.replayByte.wellFormed p16 = false := by decide

/-! ### Decoding: the words of opcode_table.json -/

def ctx (st : FrameState) : Context := { run := .running, pend := .none, state := st, cfg := p16, check := some 0xDD }

theorem test_decode_seekSkip : decodeEvent (ctx .seekStart) 0b0000010010#10 = .seekSkip 0x12 := by decide

theorem test_decode_seekSync : decodeEvent (ctx .seekStart) 0b0011111111#10 = .seekSync := by decide

theorem test_decode_seekEos : decodeEvent (ctx .seekStart) 0b0110100101#10 = .seekEos 0xA5 := by decide

theorem test_decode_addrLatch : decodeEvent (ctx .readAddress) 0b0011111111#10 = .addrLatch 0xFF := by decide

theorem test_decode_lenAccept : decodeEvent (ctx .readLength) 0b0000010000#10 = .lenAccept 0x10 := by decide

theorem test_decode_lenReject : decodeEvent (ctx .readLength) 0b0000010001#10 = .lenReject 0x11 := by decide

theorem test_decode_msgStore : decodeEvent (ctx .readMessage) 0b0000011011#10 = .msgStore 0x1B := by decide

theorem test_decode_chkPass : decodeEvent (ctx .readChecksum) 0b0011011101#10 = .chkPass 0xDD := by decide

theorem test_decode_chkFail : decodeEvent (ctx .readChecksum) 0b0011011100#10 = .chkFail 0xDC := by decide

theorem test_decode_frameEos : decodeEvent (ctx .readMessage) 0b0100000000#10 = .frameEos 0x00 := by decide

theorem test_decode_transportError : decodeEvent (ctx .readMessage) 0b1000001001#10 = .transportError 0x09 := by decide

theorem test_decode_rsvKind : decodeEvent (ctx .seekStart) 0b1100000000#10 = .rsvKind 0x00 := by decide

theorem test_decode_reset : (decodeControl (ctx .seekStart) 0b1101#4).toOption = some (.reset true false true) := by decide

theorem test_decode_start :
    (decodeControl { ctx .seekStart with run := .idle } 0b0111#4).toOption = some (.start true true) := by decide

theorem test_decode_start_ignored : (decodeControl (ctx .seekStart) 0b0100#4).toOption = none := by decide

theorem test_decode_pktAccept :
    (decodeControl { ctx .seekStart with pend := .pkt } 0b0111#4).toOption = some (.pktAccept true true) := by decide

theorem test_decode_errAccept :
    (decodeControl { ctx .seekStart with pend := .err } 0b0011#4).toOption = some (.errAccept false true) := by decide

theorem test_decode_tableWord_wide : decodeTableWord 16 0x400 = none := by decide

theorem test_decode_tableWord_width : decodeTableWord 24 0x012 = none := by decide

/-- A table word placed by `withFetchWord` is what the first step after reset runs. -/
theorem test_fetch_sync : after (step (State.reset.withFetchWord 16 0x0FF)) (·.state) = some .readAddress := by decide

theorem test_fetch_errAccept : after (step (State.reset.withFetchWord 8 0x1)) (·.delivered.length) = some 1 := by decide

/-! ### One step of each operation -/

/-- R100's worked example. -/
theorem test_seekSkip : step (pins (seeking p16) (.ofByte 0x12)) = .next (seeking p16) := rfl

/-- R101: the fields of an earlier frame are cleared. -/
theorem test_seekSync :
    after (step (pins { packetPending p16 with pend := .none } (.ofByte 0xFF))) (fun t => (t.state, t.addr_r, t.len_r)) =
      some (.readAddress, 0x00, 0x00) := by decide

/-- R102's worked example. -/
theorem test_seekEos :
    after (step (pins (seeking p16) (.ofEvent 0x100#10))) (fun t => (t.pend, t.erec.e_kind, t.erec.e_state, t.state)) =
      some (.err, .startNotFound, .seekStart, .seekStart) := by decide

/-- R101 case b, R110: the second FF is the Address. -/
theorem test_addrLatch :
    after (step (pins (inAddress p16) (.ofByte 0xFF))) (fun t => (t.addr_r, t.state)) = some (0xFF, .readLength) := by decide

/-- R111's worked example. -/
theorem test_lenAccept :
    after (step (pins (inLength p16 0x02) (.ofByte 0x04))) (fun t => (t.len_r, t.rem, t.state)) =
      some (0x04, 0x04, .readMessage) := by decide

/-- R111 case c: with MAX_LEN = 255, FF is Length 255. -/
theorem test_lenAccept_max :
    after (step (pins (inLength Config.referenceConfiguration 0x02) (.ofByte 0xFF))) (fun t => (t.len_r, t.state)) =
      some (0xFF, .readMessage) := by decide

/-- R112's worked example. -/
theorem test_lenReject :
    after (step (pins (inLength p16 0x01) (.ofByte 0x11)))
      (fun t => (t.pend, t.erec, t.state)) =
      some (.err, { ErrRec.zero with e_kind := .length, e_cause := .range, e_state := .readLength, e_addr := 0x01, e_len := 0x11 },
        .seekStart) := by decide

/-- R112: in RESCAN mode the Address and the rejected byte are replayed. -/
theorem test_lenReject_rescan :
    after (step (pins (inLength p16r 0x01) (.ofByte 0x11))) (fun t => (t.rpl, t.fbuf)) = some ([0x01, 0x11], []) := by decide

/-- R120's worked example, first byte. -/
theorem test_msgStore :
    after (step (pins (inMessage p16) (.ofByte 0x1B))) (fun t => (t.mbuf.read 0, t.rem, t.state)) =
      some (some 0x1B, 0x03, .readMessage) := by decide

/-- R120's worked example, last byte. -/
theorem test_msgStore_last :
    after (step (pins (inLastMessage p16) (.ofByte 0xFF))) (fun t => (t.mbuf.read 3, t.rem, t.state)) =
      some (some 0xFF, 0x00, .readChecksum) := by decide

/-- R132's worked example. -/
theorem test_chkPass :
    after (step (pins (inChecksum p16) (.ofByte 0xDD)))
      (fun t => (t.pkt_addr, t.pkt_plen, t.packet, t.state)) =
      some (some 0x02, some 0x03, some { messageType := 0x1B, payload := [0x01, 0x01, 0x01] }, .seekStart) := by decide

/-- R132 case c: FF FF 01 FF FF passes. -/
theorem test_chkPass_ones :
    after (step (pins (inChecksumOfOnes p16) (.ofByte 0xFF))) (fun t => (t.pend, t.pkt_plen)) = some (.pkt, some 0x00) := by
  decide

/-- R133's worked example. -/
theorem test_chkFail :
    after (step (pins (inChecksum p16) (.ofByte 0xDC)))
      (fun t => (t.pend, t.erec, t.state)) =
      some (.err, { ErrRec.zero with
        e_kind := .checksumMismatch, e_state := .readChecksum, e_addr := 0x02, e_len := 0x04, e_count := 0x04, e_got := 0xDC,
        e_exp := 0xDD }, .seekStart) := by decide

/-- R140's worked example, after FF 07 02 1B. -/
theorem test_frameEos :
    after (step (pins { seeking p16 with state := .readMessage, addr_r := 0x07, len_r := 2, rem := 1, mbuf := [(0, 0x1B)] }
      (.ofEvent 0x100#10)))
      (fun t => (t.pend, t.erec, t.state)) =
      some (.err, { ErrRec.zero with
        e_kind := .length, e_cause := .truncated, e_state := .readMessage, e_addr := 0x07, e_len := 0x02, e_count := 0x01 },
        .seekStart) := by decide

/-- R142's worked example. -/
theorem test_transportError :
    after (step (pins { seeking p16 with state := .readMessage, addr_r := 0x05, len_r := 3, rem := 2 } (.ofEvent 0x209#10)))
      (fun t => (t.pend, t.erec, t.run)) =
      some (.err, { ErrRec.zero with
        e_kind := .transportError, e_state := .readMessage, e_addr := 0x05, e_len := 0x03, e_count := 0x01, e_tcode := 0x09 },
        .terminated) := by decide

/-- R142 case a: in SEEK_START the fields of an earlier frame are not reported. -/
theorem test_transportError_seek :
    after (step (pins { packetPending p16 with pend := .none } (.ofEvent 0x209#10)))
      (fun t => (t.erec.e_state, t.erec.e_addr, t.erec.e_len)) = some (.seekStart, 0x00, 0x00) := by decide

/-- R143's worked example. -/
theorem test_rsvKind : refusal (step (pins (seeking p16) (.ofEvent 0x300#10))) = some .reservedEventKind := by decide

/-- R220: a pending packet is lost. -/
theorem test_reset : step (pins (packetPending p16) (.ofControl 0b1111#4)) = .next (idle p16) := rfl

/-- R154's worked example. -/
theorem test_start : after (step (pins (idle p16) (.ofControl 0b0100#4))) (fun t => (t.run, t.rx_ready)) = some (.running, true) := by
  decide

/-- R151's worked example. -/
theorem test_pktAccept :
    after (step (pins (packetPending p16) (.ofControl 0b0010#4))) (fun t => (t.pend, t.delivered)) =
      some (.none, [.packet 0x02 { messageType := 0x1B, payload := [0x01, 0x01, 0x01] }]) := by decide

/-- R152: the record stays. -/
theorem test_errAccept :
    after (step (pins (errorPending p16) (.ofControl 0b0001#4))) (fun t => (t.pend, t.erec.e_kind, t.delivered.length)) =
      some (.none, .startNotFound, 1) := by decide

/-- R232: in the cycle an output is accepted no event is taken. -/
theorem test_accept_first :
    after (step (pins (packetPending p16) { cv := 0b0010#4, rx_valid := true, ew := 0x0FF#10 })) (·.state) = some .seekStart := by
  decide

/-- R173's worked example, first byte. -/
theorem test_replayByte : after (step replaying) (fun t => (t.rpl, t.state)) = some ([0xFF], .seekStart) := by decide

/-- R173: a replayed byte that fails a frame goes back with its log. -/
theorem test_replayByte_fail :
    after (step { inLength p16r 0x02 with rpl := [0x00, 0x07] }) (fun t => (t.rpl, t.pend)) = some ([0x02, 0x00, 0x07], .err) := by
  decide

/-- R190's worked example. -/
theorem test_enc :
    after (exec (.enc 0x02 0x1B [0x01, 0x01, 0x01]) (idle p16)) (·.encOut) =
      some (some (.frame [0xFF, 0x02, 0x04, 0x1B, 0x01, 0x01, 0x01, 0xDD])) := by decide

/-- R191: with MAX_LEN = 4 a Payload of 4 bytes does not fit. -/
theorem test_enc_tooLarge :
    after (exec (.enc 0x02 0x1B [0x01, 0x01, 0x01, 0x01]) (idle p4r)) (·.encOut) = some (some (.error .frameTooLarge 4)) := by decide

/-- R234: a run is not over while a packet is pending, nor in IDLE before START. -/
theorem test_runEnded_early :
    runEnded { host := [], events := [] } (packetPending p16) = false ∧
      runEnded { host := [0b0100#4], events := [] } (idle p16) = false := by decide

/-- R226: an event that is not taken is offered again, one that is taken is not. -/
theorem test_run_events :
    (Environment.past { host := [], events := [0x0FF#10, 0x002#10] } (packetPending p16)).events = [0x0FF#10, 0x002#10] ∧
      (Environment.past { host := [], events := [0x0FF#10, 0x002#10] } (seeking p16)).events = [0x002#10] := by decide

/-! ### Witnesses: the hypotheses of each obligation can be met -/

theorem takesInput_seeking : (seeking p16).takesInput := ⟨rfl, rfl, .inl rfl⟩

theorem takesInput_seeking_rescan : (seeking p16r).takesInput := ⟨rfl, rfl, .inr rfl⟩

theorem takesInput_inMessage : (inMessage p16r).takesInput := ⟨rfl, rfl, .inr rfl⟩

theorem takesInput_inChecksum : (inChecksum p16).takesInput := ⟨rfl, rfl, .inl rfl⟩

theorem holds_inChecksum : (inChecksum p16).holdsMessage [0x1B, 0x01, 0x01, 0x01] := by
  unfold State.holdsMessage; decide

theorem inv_idle : (idle p16).Inv := by
  constructor <;> first | decide | (unfold Memory.written; decide)

theorem inv_seeking : (seeking p16).Inv := by
  constructor <;> first | decide | (unfold Memory.written; decide)

theorem inv_inAddress : (inAddress p16r).Inv := by
  constructor <;> first | decide | (unfold Memory.written; decide)

theorem inv_inLength : (inLength p16r 0x02).Inv := by
  constructor <;> first | decide | (unfold Memory.written; decide)

theorem inv_inMessage : (inMessage p16r).Inv := by
  constructor <;> first | decide | (unfold Memory.written; decide)

theorem inv_inLastMessage : (inLastMessage p4r).Inv := by
  constructor <;> first | decide | (unfold Memory.written; decide)

theorem inv_inChecksum : (inChecksum p4r).Inv := by
  constructor <;> first | decide | (unfold Memory.written; decide)

theorem inv_inChecksum_cursor : (inChecksum p16).Inv := by
  constructor <;> first | decide | (unfold Memory.written; decide)

theorem inv_packetPending : (packetPending p4r).Inv := by
  constructor <;> first | decide | (unfold Memory.written; decide)

theorem inv_errorPending : (errorPending p16r).Inv := by
  constructor <;> first | decide | (unfold Memory.written; decide)

theorem inv_terminated : (terminated p16).Inv := by
  constructor <;> first | decide | (unfold Memory.written; decide)

theorem inv_truncatedPending : (truncatedPending p16r).Inv := by
  constructor <;> first | decide | (unfold Memory.written; decide)

theorem inv_delivered : (delivered p16).Inv := by
  constructor <;> first | decide | (unfold Memory.written; decide)

theorem inv_replaying : replaying.Inv := by
  constructor <;> first | decide | (unfold Memory.written; decide)

theorem witness_SeekSkipAbsorbsNoise :
    (seeking p16).takesInput ∧ (seeking p16).state = .seekStart ∧ (0xFE : Byte) ≠ START_BYTE :=
  ⟨takesInput_seeking, rfl, by decide⟩

theorem witness_SeekSyncOpensFrame :
    (seeking p16).takesInput ∧ (seeking p16).state = .seekStart ∧ (ctx .readAddress).state = .readAddress ∧
      (ctx .readChecksum).state ≠ .seekStart :=
  ⟨takesInput_seeking, rfl, rfl, by decide⟩

theorem witness_SeekEosReportsStartNotFound : (seeking p16r).takesInput ∧ (seeking p16r).state = .seekStart :=
  ⟨takesInput_seeking_rescan, rfl⟩

theorem witness_AddrLatchStoresAddress : (inAddress p16).takesInput ∧ (inAddress p16).state = .readAddress :=
  ⟨⟨rfl, rfl, .inl rfl⟩, rfl⟩

/-- Both ends of the range. -/
theorem witness_LenAcceptStoresLength :
    (inLength p16 0x02).takesInput ∧ (inLength p16 0x02).state = .readLength ∧
      (1 ≤ (0x01 : Byte).toNat ∧ (0x01 : Byte).toNat ≤ (inLength p16 0x02).cfg.maxLen.val) ∧
      (1 ≤ (0x10 : Byte).toNat ∧ (0x10 : Byte).toNat ≤ (inLength p16 0x02).cfg.maxLen.val) :=
  ⟨⟨rfl, rfl, .inl rfl⟩, rfl, by decide, by decide⟩

/-- 0, and the least value above MAX_LEN. -/
theorem witness_LenRejectReportsRange :
    (inLength p16 0x02).takesInput ∧ (inLength p16 0x02).state = .readLength ∧
      ((0x00 : Byte) = 0 ∨ (inLength p16 0x02).cfg.maxLen.val < (0x00 : Byte).toNat) ∧
      ((0x11 : Byte) = 0 ∨ (inLength p16 0x02).cfg.maxLen.val < (0x11 : Byte).toNat) :=
  ⟨⟨rfl, rfl, .inl rfl⟩, rfl, by decide, by decide⟩

/-- The first byte of a Message and the last. -/
theorem witness_MsgStoreWritesNextEntry :
    ((inMessage p16r).takesInput ∧ (inMessage p16r).state = .readMessage ∧ 1 ≤ (inMessage p16r).rem.toNat ∧
      (inMessage p16r).rem.toNat ≤ (inMessage p16r).len_r.toNat ∧
      (inMessage p16r).len_r.toNat ≤ (inMessage p16r).cfg.maxLen.val) ∧
    ((inLastMessage p4r).takesInput ∧ (inLastMessage p4r).state = .readMessage ∧ 1 ≤ (inLastMessage p4r).rem.toNat ∧
      (inLastMessage p4r).rem.toNat ≤ (inLastMessage p4r).len_r.toNat ∧
      (inLastMessage p4r).len_r.toNat ≤ (inLastMessage p4r).cfg.maxLen.val) :=
  ⟨⟨takesInput_inMessage, rfl, by decide⟩, ⟨⟨rfl, rfl, .inr rfl⟩, rfl, by decide⟩⟩

theorem witness_ChkPassPresentsPacket :
    (inChecksum p16).takesInput ∧ (inChecksum p16).state = .readChecksum ∧
      (inChecksum p16).holdsMessage (0x1B :: [0x01, 0x01, 0x01]) ∧
      (0xDD : Byte) = chk (inChecksum p16).cfg.chk (inChecksum p16).addr_r (inChecksum p16).len_r [0x1B, 0x01, 0x01, 0x01] :=
  ⟨takesInput_inChecksum, rfl, holds_inChecksum, by decide⟩

theorem witness_ChkFailReportsMismatch :
    (inChecksum p16).takesInput ∧ (inChecksum p16).state = .readChecksum ∧
      (inChecksum p16).holdsMessage [0x1B, 0x01, 0x01, 0x01] ∧
      (0xDC : Byte) ≠ chk (inChecksum p16).cfg.chk (inChecksum p16).addr_r (inChecksum p16).len_r [0x1B, 0x01, 0x01, 0x01] :=
  ⟨takesInput_inChecksum, rfl, holds_inChecksum, by decide⟩

/-- Each frame state, in a state with the invariants. -/
theorem witness_FrameEosReportsTruncated :
    ((inAddress p16r).takesInput ∧ (inAddress p16r).state = .readAddress ∧ (inAddress p16r).Inv) ∧
    ((inLength p16r 0x02).takesInput ∧ (inLength p16r 0x02).state = .readLength ∧ (inLength p16r 0x02).Inv) ∧
    ((inMessage p16r).takesInput ∧ (inMessage p16r).state = .readMessage ∧ (inMessage p16r).Inv) ∧
    ((inChecksum p4r).takesInput ∧ (inChecksum p4r).state = .readChecksum ∧ (inChecksum p4r).Inv) :=
  ⟨⟨⟨rfl, rfl, .inr rfl⟩, rfl, inv_inAddress⟩, ⟨⟨rfl, rfl, .inr rfl⟩, rfl, inv_inLength⟩,
    ⟨takesInput_inMessage, rfl, inv_inMessage⟩, ⟨⟨rfl, rfl, .inr rfl⟩, rfl, inv_inChecksum⟩⟩

theorem witness_TransportErrorTerminates :
    ((seeking p16).takesInput ∧ (seeking p16).state = .seekStart) ∧
    ((inMessage p16r).takesInput ∧ (inMessage p16r).state ≠ .seekStart) ∧
    ((terminated p16).run = .terminated ∧ isReset (.errAccept false false) = false ∧
      ∃ t, exec (.errAccept false false) (terminated p16) = .next t) :=
  ⟨⟨takesInput_seeking, rfl⟩, ⟨takesInput_inMessage, by decide⟩, rfl, rfl, _, rfl⟩

theorem witness_PktAcceptDeliversPacket :
    ((packetPending p16).pend = .pkt ∧ (packetPending p16).holdsMessage (0x1B :: [0x01, 0x01, 0x01])) ∧
      (seeking p16).pend ≠ .pkt :=
  ⟨⟨rfl, holds_inChecksum⟩, by decide⟩

theorem witness_ErrAcceptDeliversRecord : (errorPending p16).pend = .err ∧ (packetPending p16).pend ≠ .err := by decide

theorem witness_StartLeavesIdle : (idle p16).run = .idle ∧ (terminated p16).run ≠ .idle := by decide

theorem witness_ReplayByteRunsSelectedOperation :
    replaying.Inv ∧ replaying.cfg.resync = .rescan ∧ replaying.run = .running ∧ replaying.pend = .none ∧
      replaying.rpl = 0x02 :: [0xFF] :=
  ⟨inv_replaying, rfl, rfl, rfl, rfl⟩

/-- The largest Payload, with MAX_LEN = 4. -/
theorem witness_EncBuildsFrame : [0x01, 0x02, (0x03 : Byte)].length + 1 ≤ (idle p4r).cfg.maxLen.val := by decide

/-- One byte more. -/
theorem witness_EncRejectsLongPayload : (idle p4r).cfg.maxLen.val < [0x01, 0x02, 0x03, (0x04 : Byte)].length + 1 := by decide

/-- Each clause of R85. -/
theorem witness_ControlVectorSelects :
    (0b1000#4).getLsbD 3 = true ∧
    ((0b0100#4).getLsbD 3 = false ∧ (0b0100#4).getLsbD 2 = true ∧ (idle p16).context.run = .idle) ∧
    (¬((0b0110#4).getLsbD 2 = true ∧ (packetPending p16).context.run = .idle) ∧ (0b0110#4).getLsbD 1 = true ∧
      (packetPending p16).context.pend = .pkt) ∧
    (¬((0b0111#4).getLsbD 2 = true ∧ (errorPending p16).context.run = .idle) ∧ (0b0111#4).getLsbD 0 = true ∧
      (errorPending p16).context.pend = .err) ∧
    (¬((0b0111#4).getLsbD 1 = true ∧ (seeking p16).context.pend = .pkt) ∧
      ¬((0b0111#4).getLsbD 0 = true ∧ (seeking p16).context.pend = .err)) := by decide

theorem witness_NoEventOutsideRunning :
    (idle p16).run ≠ .running ∧ select (.ofControl 0b0100#4) (idle p16) = some (.start false false) ∧
      (terminated p16).run ≠ .running ∧ select (.ofControl 0b0001#4) (terminated p16) = some (.errAccept false false) := by
  decide

theorem witness_StepRunsSelectedOperation :
    select (pins (seeking p16) (.ofByte 0xFF)).sample (pins (seeking p16) (.ofByte 0xFF)) = some .seekSync ∧
      select (seeking p16).sample (seeking p16) = none := by decide

/-- Each clause of R232, in its order. -/
theorem witness_StepFollowsCycleOrder :
    (pins (seeking p16) (.ofControl 0b1111#4)).sample.cv.getLsbD 3 = true ∧
    ((idle p16).run = .idle ∧ (pins (idle p16) (.ofControl 0b0100#4)).sample.cv.getLsbD 2 = true) ∧
    ((packetPending p16).pend = .pkt ∧ (pins (packetPending p16) .accept).sample.cv.getLsbD 1 = true) ∧
    ((errorPending p16).pend = .err ∧ (pins (errorPending p16) .accept).sample.cv.getLsbD 0 = true) ∧
    (replaying.cfg.resync = .rescan ∧ replaying.run = .running ∧ replaying.pend = .none ∧ replaying.rpl ≠ []) ∧
    ((pins (seeking p16) (.ofByte 0x00)).sample.rx_valid = true ∧ (seeking p16).rx_ready = true) ∧
    ¬((seeking p16).sample.rx_valid = true ∧ (seeking p16).rx_ready = true) := by decide

theorem witness_AtMostOneOperationEnabled :
    (packetPending p4r).Inv ∧ enabledAt .accept (.pktAccept false true) (packetPending p4r) = true :=
  ⟨inv_packetPending, by decide⟩

/-- Something is enabled, and nothing is. -/
theorem witness_StepIsTheTransactionRelation :
    replaying.Inv ∧ enabledAt replaying.sample .replayByte replaying = true ∧ (seeking p16).Inv ∧
      (select (seeking p16).sample (seeking p16) = none) :=
  ⟨inv_replaying, by decide, inv_seeking, by decide⟩

theorem witness_DisabledOperationChangesNothing :
    (∀ x, Instr.seekSync ≠ .rsvKind x) ∧ enabled .seekSync (inAddress p16) = false :=
  ⟨fun _ h => Instr.noConfusion h, by decide⟩

/-- One word of each width, and the largest of each. -/
theorem witness_FetchWordRunsItsOperation :
    decodeTableWord 16 0x3FF = some (.rsvKind 0xFF) ∧ decodeTableWord 8 0xF = some (.reset true true true) ∧
      decodeTableWord 8 0x3 = some (.pktAccept false true) := by decide

theorem witness_DecodeInvertsEncode :
    ((ctx .readLength).run = .idle → (ctx .readLength).pend = .none) ∧
      (Instr.lenReject 0x11).selectedIn (ctx .readLength) = true ∧
      encode (.lenReject 0x11) = some (.event 0b0000010001#10) := by decide

theorem witness_EncodeInvertsDecode : decode (ctx .readChecksum) (.event 0b0011011101#10) = .ok (.chkPass 0xDD) := rfl

theorem witness_StepKeepsInvariants :
    ∃ s t : State, s.Inv ∧ step s = .next t ∧ t.pend = .err ∧ t.rpl = [0x02, 0x04, 0x1B, 0x01, 0x01, 0x01, 0xDC] := by
  refine ⟨pins (inChecksum p4r) (.ofByte 0xDC), _, ?_, rfl, rfl, rfl⟩
  constructor <;> first | decide | (unfold Memory.written; decide)

theorem witness_StepStopsOnlyOnReservedKind :
    (seeking p16).Inv ∧ (seeking p16).takesInput ∧ (0x300#10 : EventWord) = (3#2 ++ (0x00 : Byte) : EventWord) :=
  ⟨inv_seeking, takesInput_seeking, by decide⟩

theorem witness_OperationFrames : ∃ t, exec (.msgStore 0x1B) (inMessage p16) = .next t ∧ t.mbuf = [(0, 0x1B)] := ⟨_, rfl, rfl⟩

theorem witness_CursorModeHasNoReplay :
    (inLength p16 0x02).cfg.resync = .cursor ∧ isReset (.lenReject 0x00) = false ∧
      ∃ t, exec (.lenReject 0x00) (inLength p16 0x02) = .next t ∧ t.pend = .err :=
  ⟨rfl, rfl, _, rfl, rfl⟩

theorem witness_PendingOutputIsStable :
    (packetPending p16).pend ≠ .none ∧ isReset (.pktAccept false false) = false ∧
      ∃ t, exec (.pktAccept false false) (packetPending p16) = .next t ∧ t.pend = .none :=
  ⟨by decide, rfl, _, rfl, rfl⟩

/-- A frame that ends with a packet, and an error that belongs to no frame. -/
theorem witness_OneResultPerAttemptedFrame :
    (∃ s t : State, s.Inv ∧ step s = .next t ∧ s.state ≠ .seekStart ∧ t.state = .seekStart ∧
      s.sample.cv.getLsbD 3 = false ∧ t.pend = .pkt) ∧
    (∃ s t : State, s.Inv ∧ step s = .next t ∧ s.state = .seekStart ∧ s.pend = .none ∧ t.pend ≠ .none) := by
  refine ⟨⟨pins (inChecksum p4r) (.ofByte 0xDD), _, ?_, rfl, by decide, rfl, by decide, rfl⟩,
    ⟨pins (seeking p16) (.ofEvent 0x100#10), _, ?_, rfl, rfl, rfl, by decide⟩⟩ <;>
  constructor <;> first | decide | (unfold Memory.written; decide)

/-- A frame error, and a transport error. -/
theorem witness_ErrorEntryChangesNothingElse :
    (∃ t, exec (.frameEos 0x00) (inMessage p16) = .next t ∧ (inMessage p16).pend = .none ∧ t.pend = .err ∧
      t.erec.e_kind ≠ .transportError) ∧
    (∃ t, exec (.transportError 0x09) (inMessage p16) = .next t ∧ t.pend = .err ∧ t.erec.e_kind = .transportError) :=
  ⟨⟨_, rfl, rfl, rfl, by decide⟩, ⟨_, rfl, rfl, rfl⟩⟩

theorem witness_ParametersNeverChange :
    ∃ t, steps 2 { seeking p16 with inputs := [.ofByte 0xFF, .ofByte 0x02] } = .next t ∧ t.state = .readLength := ⟨_, rfl, rfl⟩

theorem witness_TerminationIsFinal :
    (terminated p16).run = .terminated ∧ (∀ x ∈ [Sample.accept, Sample.ofByte 0xFF], x.cv.getLsbD 3 = false) ∧
      ∃ t, steps 2 { terminated p16 with inputs := [.accept, .ofByte 0xFF] } = .next t ∧ t.delivered.length = 1 :=
  ⟨rfl, by decide, _, rfl, rfl⟩

theorem witness_UnsampledInputsMakeNoDifference :
    ¬(packetPending p16).takesInput ∧ (0b1000#4).getLsbD 3 = true ∧ (0b1111#4).getLsbD 3 = true := by
  refine ⟨?_, by decide, by decide⟩
  rintro ⟨-, h, -⟩
  exact absurd h (by decide)

theorem witness_StorageStaysBounded : (inMessage p16r).Inv ∧ ∃ t, steps 1 (inMessage p16r) = .next t ∧ t.mbuf = [] :=
  ⟨inv_inMessage, _, rfl, rfl⟩

/-- A whole Message with FF in it, and its last byte alone. -/
theorem witness_MessageBytesAreAllStored :
    ((inMessage p16r).Inv ∧ (inMessage p16r).takesInput ∧ (inMessage p16r).state = .readMessage ∧
      [0xFF, 0x01, 0x02, (0x03 : Byte)].length = (inMessage p16r).rem.toNat) ∧
    ((inLastMessage p4r).Inv ∧ (inLastMessage p4r).takesInput ∧ (inLastMessage p4r).state = .readMessage ∧
      [(0xFF : Byte)].length = (inLastMessage p4r).rem.toNat) :=
  ⟨⟨inv_inMessage, takesInput_inMessage, rfl, by decide⟩, ⟨inv_inLastMessage, ⟨rfl, rfl, .inr rfl⟩, rfl, by decide⟩⟩

/-- In each resync mode; the empty Payload too. -/
theorem witness_EncodedFrameIsDelivered :
    ((seeking p16).takesInput ∧ (seeking p16).state = .seekStart ∧
      encFrame (seeking p16).cfg 0x02 0x1B [0x01, 0x01, 0x01] = .frame [0xFF, 0x02, 0x04, 0x1B, 0x01, 0x01, 0x01, 0xDD]) ∧
    ((seeking p16r).takesInput ∧ (seeking p16r).state = .seekStart ∧
      encFrame (seeking p16r).cfg 0xFF 0xFF [] = .frame [0xFF, 0xFF, 0x01, 0xFF, 0xFF]) :=
  ⟨⟨takesInput_seeking, rfl, by decide⟩, ⟨takesInput_seeking_rescan, rfl, by decide⟩⟩

theorem witness_CursorResynchronizes :
    (seeking p16).takesInput ∧ (seeking p16).state = .seekStart ∧ (seeking p16).cfg.resync = .cursor ∧
      (0x01 : Byte).toNat = ([] : List Byte).length + 1 ∧ (0x01 : Byte).toNat ≤ (seeking p16).cfg.maxLen.val ∧
      (0x00 : Byte) ≠ chk (seeking p16).cfg.chk 0x07 0x01 (0x1B :: []) ∧
      encFrame (seeking p16).cfg 0x02 0x1B [0x01, 0x01, 0x01] = .frame [0xFF, 0x02, 0x04, 0x1B, 0x01, 0x01, 0x01, 0xDD] :=
  ⟨takesInput_seeking, rfl, rfl, by decide, by decide, by decide, by decide⟩

theorem witness_ModesAgreeWhileNoFrameFails :
    ∃ s r t : State, s.Inv ∧ sameButMode s r ∧ step s = .next t ∧ t.pend = .pkt ∧
      ¬(s.state ≠ .seekStart ∧ t.pend = .err ∧ t.run = .running) := by
  refine ⟨pins (inChecksum p16) (.ofByte 0xDD), pins (inChecksum p16r) (.ofByte 0xDD), _, ?_,
    ⟨rfl, [0x02, 0x04, 0x1B, 0x01, 0x01, 0x01], rfl⟩, rfl, rfl, by decide⟩
  constructor <;> first | decide | (unfold Memory.written; decide)

theorem witness_ReplayQueueDrains : replaying.Inv ∧ replaying.run = .running ∧ replaying.cfg.resync = .rescan :=
  ⟨inv_replaying, rfl, rfl⟩

/-- Cause RANGE and cause TRUNCATED. -/
theorem witness_ErrorPortShowsRecord :
    ((errorPending p16r).Inv ∧ (errorPending p16r).pend = .err ∧ (errorPending p16r).erec.e_cause = .range) ∧
    ((truncatedPending p16r).Inv ∧ (truncatedPending p16r).pend = .err ∧
      (truncatedPending p16r).erec.e_cause = .truncated) :=
  ⟨⟨inv_errorPending, rfl, rfl⟩, ⟨inv_truncatedPending, rfl, rfl⟩⟩

/-- A run that has ended, one that has not, and one that the block's termination ended with an event left. -/
theorem witness_RunEndsExactlyWhenNothingIsEnabled :
    ((seeking p16).Inv ∧ runEnded { host := [], events := [] } (seeking p16) = true) ∧
    ((errorPending p16r).Inv ∧ runEnded { host := [], events := [] } (errorPending p16r) = false) ∧
    ((delivered p16).Inv ∧ runEnded { host := [], events := [0x0FF#10] } (delivered p16) = true) :=
  ⟨⟨inv_seeking, by decide⟩, ⟨inv_errorPending, by decide⟩, ⟨inv_delivered, by decide⟩⟩

theorem witness_RunIsARunOfSteps :
    ∃ e t, runOf 3 [0x0FF#10, 0x100#10] (packetPending p16) = .next (e, t) ∧ t.state = .readAddress ∧ e.events = [0x100#10] :=
  ⟨_, _, rfl, rfl, rfl⟩

theorem witness_EveryRunEnds : ∀ w ∈ [0x0FF#10, 0x209#10], eventKind w ≠ 3 := by decide

end Sys2Proof.Tests
end

section
/-! The codes of the registers `run`, `state` and `pend` tell their values apart, so the status outputs of R29, which show
those codes, determine the registers. -/

namespace Sys2Proof

theorem RunState.code_injective : Function.Injective RunState.code := by
  intro a b
  cases a <;> cases b <;> decide

theorem FrameState.code_injective : Function.Injective FrameState.code := by
  intro a b
  cases a <;> cases b <;> decide

theorem Pending.code_injective : Function.Injective Pending.code := by
  intro a b
  cases a <;> cases b <;> decide

end Sys2Proof

namespace Sys2Proof.Machine

theorem State.run_eq_iff_st_run (s : State) (r : RunState) : s.run = r ↔ s.st_run = r.code :=
  RunState.code_injective.eq_iff.symm

theorem State.state_eq_iff_st_state (s : State) (f : FrameState) : s.state = f ↔ s.st_state = f.code :=
  FrameState.code_injective.eq_iff.symm

theorem State.pend_eq_iff_st_pend (s : State) (p : Pending) : s.pend = p ↔ s.st_pend = p.code :=
  Pending.code_injective.eq_iff.symm

/-- Settles O55: each status output is the code of its register (R29), and the codes are injective. -/
theorem statusOutputsCopyRegisters : Obligations.StatusOutputsCopyRegisters := fun s =>
  ⟨s.run_eq_iff_st_run .idle, s.run_eq_iff_st_run .running, s.run_eq_iff_st_run .terminated,
    s.state_eq_iff_st_state .seekStart, s.state_eq_iff_st_state .readAddress, s.state_eq_iff_st_state .readLength,
    s.state_eq_iff_st_state .readMessage, s.state_eq_iff_st_state .readChecksum,
    s.pend_eq_iff_st_pend .none, s.pend_eq_iff_st_pend .pkt, s.pend_eq_iff_st_pend .err⟩

end Sys2Proof.Machine
end

section
/-! What can happen while a result is pending (R63, R155): the input side and the replay queue wait, so of the operations only
RESET, START, the two acceptances and ENC can act, and of these RESET alone writes what the ports show. -/

namespace Sys2Proof.Machine

/-- While a result is pending no event operation and no replay is enabled (R150, R155, R173). -/
theorem formatOf_of_enabled_of_pending {i : Instr} {s : State} (hp : s.pend ≠ .none) (he : enabled i s = true) :
    formatOf i = .ctrl4 ∨ formatOf i = .func := by
  cases hf : formatOf i with
  | evt10 =>
    obtain ⟨⟨-, hnone, -⟩, -⟩ := (enabled_event_iff s hf).mp he
    exact absurd hnone hp
  | internal =>
    simp only [enabled, hf] at he
    obtain ⟨-, -, hnone, -⟩ := (replayReady_eq_true_iff s).mp he
    exact absurd hnone hp
  | ctrl4 => exact .inl rfl
  | func => exact .inr rfl

/-- What the effect of a control operation other than RESET, or of ENC, can answer. -/
theorem effect_next_of_control {i : Instr} {s t : State} (hf : formatOf i = .ctrl4 ∨ formatOf i = .func)
    (hr : isReset i = false) (h : effect i s = .next t) :
    t = { s with run := .running } ∨ (∃ p, t = s.deliverPacket p) ∨ t = s.returnFromError ∨
      ∃ r, t = { s with encOut := some r } := by
  cases i with
  | reset _ _ _ => cases hr
  | start _ _ => cases h; exact .inl rfl
  | pktAccept _ _ =>
    obtain ⟨p, -, rfl⟩ := pktAcceptEffect_next h
    exact .inr (.inl ⟨p, rfl⟩)
  | errAccept _ _ => cases h; exact .inr (.inr (.inl rfl))
  | enc _ _ _ => cases h; exact .inr (.inr (.inr ⟨_, rfl⟩))
  | _ => simp [formatOf] at hf

/-- Settles O38: while a result is pending an operation other than RESET changes nothing, or is START, an acceptance or ENC,
whose effects keep every register that the ports show. -/
theorem pendingOutputIsStable : Obligations.PendingOutputIsStable := by
  intro s t i hp hr h
  rcases exec_next_cases h with ⟨he, heff⟩ | ⟨-, rfl⟩
  · have hf := formatOf_of_enabled_of_pending hp he
    rcases effect_next_of_control hf hr heff with rfl | ⟨p, rfl⟩ | rfl | ⟨r, rfl⟩ <;> simp
  · simp

end Sys2Proof.Machine
end


section
/-! The control vector (R85): the branches of `decodeControl` exclude one another, so that each of them settles every clause of
the rule. -/

namespace Sys2Proof.Machine

/-- Settles O20: in each branch of the decoder its own condition selects its operation, and refutes the condition of every other
clause; START comes before an acceptance (R232), and a pending output is never of both kinds. -/
theorem controlVectorSelects : Obligations.ControlVectorSelects := by
  intro c cv
  rcases decodeControl_cases c cv with ⟨hrst, h⟩ | ⟨hrst, hstart, hrun, h⟩ | ⟨hrst, hstart, hpkt, hpend, h⟩ |
    ⟨hrst, hstart, herr, hpend, h⟩ | ⟨hrst, hstart, hpkt, herr, h⟩
  · exact ⟨fun _ => h, fun hn => absurd hrst (Bool.eq_false_iff.mp hn)⟩
  all_goals refine ⟨fun hr => absurd hr (Bool.eq_false_iff.mp hrst), fun _ => ?_⟩
  · exact ⟨fun _ => h, fun hn => absurd ⟨hstart, hrun⟩ hn⟩
  all_goals refine ⟨fun hs => absurd hs hstart, fun _ => ?_⟩
  · exact ⟨fun _ => h, by simp [hpend], fun hn => absurd ⟨hpkt, hpend⟩ hn⟩
  · exact ⟨by simp [hpend], fun _ => h, fun _ hn => absurd ⟨herr, hpend⟩ hn⟩
  · exact ⟨fun hp => absurd hp hpkt, fun he => absurd he herr, fun _ _ => h⟩

end Sys2Proof.Machine
end

section
/-! The byte synchronizer (R100 to R102). A word the input side takes performs the effect of the operation it decodes to, so
each rule is a decoding in SEEK_START and an effect on a whole state. -/

namespace Sys2Proof

/-- The BYTE rows of SEEK_START (R89). -/
theorem decodeByte_seekStart {c : Context} (h : c.state = .seekStart) (b : Byte) :
    decodeByte c b = if b = START_BYTE then .seekSync else .seekSkip b := by
  simp only [decodeByte, h]

/-- The BYTE row of READ_ADDRESS (R89). -/
theorem decodeByte_readAddress {c : Context} (h : c.state = .readAddress) (b : Byte) : decodeByte c b = .addrLatch b := by
  simp only [decodeByte, h]

theorem eventWord_startByte : eventWord 0#2 START_BYTE = 0x0FF#10 := rfl

end Sys2Proof

namespace Sys2Proof.Machine

/-- The "if RESYNC_MODE = RESCAN" test of the model is the one of the obligations. -/
theorem State.ite_rescans_eq_ifRescan (s : State) (yes no : List Byte) :
    (if s.rescans then yes else no) = s.ifRescan yes no := by
  simp [State.ifRescan]

/-- Emptying the log in RESCAN mode writes `fbuf` alone (R171). -/
theorem State.clearLog_eq (s : State) : s.clearLog = { s with fbuf := s.ifRescan [] s.fbuf } := by
  simp only [State.clearLog, State.ite_rescans_eq_ifRescan]

/-- An error raised outside a frame writes only the record and `pend` (R34, R204). -/
theorem State.raiseError_of_seekStart {s : State} (h : s.state = .seekStart) (r : ErrRec) :
    s.raiseError r = { s with pend := .err, erec := r } := by
  simp only [State.raiseError, ← h]

/-- The operation of an event word acts when the input side is ready (R89, R150). -/
theorem exec_of_decodeEvent {s : State} {ew : EventWord} {i : Instr} (ht : s.takesInput)
    (hd : decodeEvent s.context ew = i) : exec i s = effect i s := by
  subst hd
  exact exec_of_enabled ((enabled_event_iff s (formatOf_decodeEvent _ _)).mpr ⟨ht, selectedIn_decodeEvent _ _⟩)

/-- Settles O1: the word's row is SEEK.SKIP, whose effect is the state itself. -/
theorem seekSkipAbsorbsNoise : Obligations.SeekSkipAbsorbsNoise := by
  intro s b ht hs hb
  have hd : decodeEvent s.context (eventWord 0#2 b) = .seekSkip b := by
    rw [decodeEvent_byte, decodeByte_seekStart hs, if_neg hb]
  exact ⟨hd, exec_of_decodeEvent ht hd⟩

/-- Settles O2: the word of FF is SEEK.SYNC's in SEEK_START and ADDR.LATCH's in READ_ADDRESS, and SEEK.SYNC's row applies in
SEEK_START alone. -/
theorem seekSyncOpensFrame : Obligations.SeekSyncOpensFrame := by
  unfold Obligations.SeekSyncOpensFrame
  rw [← eventWord_startByte]
  refine ⟨fun s ht hs => ?_, fun c hc => ?_, fun c hc hd => hc ?_⟩
  · have hd : decodeEvent s.context (eventWord 0#2 START_BYTE) = .seekSync := by
      rw [decodeEvent_byte, decodeByte_seekStart hs, if_pos rfl]
    refine ⟨hd, (exec_of_decodeEvent ht hd).trans ?_⟩
    simp only [effect, seekSyncEffect, State.clearLog_eq]
  · exact (decodeEvent_byte c _).trans (decodeByte_readAddress hc _)
  · have hrow := selectedIn_decodeEvent c (eventWord 0#2 START_BYTE)
    simpa [hd, Instr.selectedIn] using hrow

/-- Settles O3: an EOS in SEEK_START is SEEK.EOS, which raises its error outside a frame. -/
theorem seekEosReportsStartNotFound : Obligations.SeekEosReportsStartNotFound := by
  intro s x ht hs
  have hd : decodeEvent s.context (eventWord 1#2 x) = .seekEos x :=
    (decodeEvent_eos s.context x).trans (if_pos hs)
  refine ⟨hd, (exec_of_decodeEvent ht hd).trans ?_⟩
  simp only [effect, seekEosEffect, State.raiseError_of_seekStart hs, ErrRec.zero]

end Sys2Proof.Machine
end

section
/-! The operations of 41_header.md (O4, O5, O6): the decoder's READ_LENGTH row, what a byte logged and a log queued for replay
write as whole next states, and the three statements. -/

namespace Sys2Proof

/-- The BYTE rows of READ_LENGTH (R89). -/
theorem decodeByte_readLength {c : Context} (h : c.state = .readLength) (b : Byte) :
    decodeByte c b = if 1 ≤ b.toNat ∧ b.toNat ≤ c.cfg.maxLen.val then .lenAccept b else .lenReject b := by
  simp only [decodeByte, h]

/-- LEN.REJECT's condition excludes LEN.ACCEPT's (R111, R112). -/
theorem not_lengthInRange {b : Byte} {n : Nat} (h : b = 0 ∨ n < b.toNat) : ¬(1 ≤ b.toNat ∧ b.toNat ≤ n) := by
  rintro ⟨hpos, hle⟩
  rcases h with rfl | hlt
  · exact absurd hpos (by decide)
  · omega

end Sys2Proof

namespace Sys2Proof.Machine

/-- Logging a byte in RESCAN mode writes `fbuf` alone (R171). -/
theorem State.logByte_eq (b : Byte) (s : State) :
    s.logByte b = { s with fbuf := s.ifRescan (s.fbuf ++ [b]) s.fbuf } := by
  simp only [State.logByte, State.ite_rescans_eq_ifRescan]

/-- Queueing the log in RESCAN mode writes `rpl` and `fbuf` (R172). -/
theorem State.queueReplay_eq (s : State) :
    s.queueReplay = { s with rpl := s.ifRescan (s.fbuf ++ s.rpl) s.rpl, fbuf := s.ifRescan [] s.fbuf } := by
  simp only [State.queueReplay, State.ite_rescans_eq_ifRescan]

/-- The failing byte is the last one of the stretch that goes in front of the replay queue (R172). -/
theorem State.queueReplay_logByte (b : Byte) (s : State) :
    (s.logByte b).queueReplay =
      { s with
        rpl := s.ifRescan ((s.fbuf ++ [b]) ++ s.rpl) s.rpl
        fbuf := s.ifRescan [] s.fbuf } := by
  rw [State.queueReplay_eq, State.logByte_eq]
  cases h : s.cfg.resync <;> simp [State.ifRescan, h]

/-- Settles O4: every byte in READ_ADDRESS is ADDR.LATCH, which logs it and stores it. -/
theorem addrLatchStoresAddress : Obligations.AddrLatchStoresAddress := by
  intro s b ht hs
  have hd : decodeEvent s.context (eventWord 0#2 b) = .addrLatch b :=
    (decodeEvent_byte s.context b).trans (decodeByte_readAddress hs b)
  refine ⟨hd, (exec_of_decodeEvent ht hd).trans ?_⟩
  simp only [effect, addrLatchEffect, State.logByte_eq]

/-- Settles O5: a byte in the range takes the first branch of the READ_LENGTH row. -/
theorem lenAcceptStoresLength : Obligations.LenAcceptStoresLength := by
  intro s b ht hs hpos hle
  have hd : decodeEvent s.context (eventWord 0#2 b) = .lenAccept b := by
    rw [decodeEvent_byte, decodeByte_readLength hs, if_pos ⟨hpos, hle⟩]
  refine ⟨hd, (exec_of_decodeEvent ht hd).trans ?_⟩
  simp only [effect, lenAcceptEffect, State.logByte_eq]

/-- Settles O6: a byte out of the range takes the second branch of the READ_LENGTH row, and is logged before the log is
queued. -/
theorem lenRejectReportsRange : Obligations.LenRejectReportsRange := by
  intro s b ht hs hb
  have hd : decodeEvent s.context (eventWord 0#2 b) = .lenReject b := by
    rw [decodeEvent_byte, decodeByte_readLength hs]
    exact if_neg (not_lengthInRange hb)
  refine ⟨hd, (exec_of_decodeEvent ht hd).trans ?_⟩
  simp only [effect, lenRejectEffect, State.queueReplay_logByte, State.raiseError, ErrRec.zero]

end Sys2Proof.Machine
end

section
/-! The packet assembler (R120). (I-d) of R35 puts the write index inside the buffer, so a byte in READ_MESSAGE is stored and the
packet buffer's laws say what it then reads. -/

namespace Sys2Proof

/-- The BYTE row of READ_MESSAGE (R89). -/
theorem decodeByte_readMessage {c : Context} (h : c.state = .readMessage) (b : Byte) : decodeByte c b = .msgStore b := by
  simp only [decodeByte, h]

end Sys2Proof

namespace Sys2Proof.Machine

/-- While Message bytes remain, the write index is below MAX_LEN (R55, (I-d) of R35). -/
theorem received_lt_maxLen {s : State} (hpos : 1 ≤ s.rem.toNat) (hrem : s.rem.toNat ≤ s.len_r.toNat)
    (hlen : s.len_r.toNat ≤ s.cfg.maxLen.val) : s.received.toNat < s.cfg.maxLen.val := by
  rw [received_toNat hrem]
  omega

/-- MSG.STORE inside the buffer, as a whole next state; the new `rem` is 0 exactly when `rem` was 1 (R120). -/
theorem msgStoreEffect_of_received_lt {s : State} (b : Byte) (h : s.received.toNat < s.cfg.maxLen.val) :
    msgStoreEffect b s =
      .next { s with
        mbuf := s.mbuf.write s.received.toNat b
        rem := s.rem - 1
        state := if s.rem = 1 then .readChecksum else .readMessage
        fbuf := s.ifRescan (s.fbuf ++ [b]) s.fbuf } := by
  have hlast : s.rem - 1 = 0 ↔ s.rem = 1 := by bv_omega
  simp only [msgStoreEffect, if_pos h, State.logByte_eq, hlast]

/-- Settles O7: a byte in READ_MESSAGE is MSG.STORE, and the new buffer is a write at the index `len_r - rem`, which lies inside
the buffer and is the one index whose reading changes. -/
theorem msgStoreWritesNextEntry : Obligations.MsgStoreWritesNextEntry := by
  intro s b ht hs hpos hrem hlen
  have hd : decodeEvent s.context (eventWord 0#2 b) = .msgStore b :=
    (decodeEvent_byte s.context b).trans (decodeByte_readMessage hs b)
  have hexec := (exec_of_decodeEvent ht hd).trans
    (msgStoreEffect_of_received_lt b (received_lt_maxLen hpos hrem hlen))
  rw [← received_toNat hrem]
  exact ⟨hd, s.mbuf.write s.received.toNat b, hexec, Memory.read_write_same .., fun _ hj => Memory.read_write_other _ _ hj⟩

end Sys2Proof.Machine
end

section
/-! The checksum verifier (R131 to R133). In READ_CHECKSUM a byte is compared with the checksum of the Message that the buffer
holds; the outcome picks the row, and each row's effect is given as a whole next state. -/

namespace Sys2Proof

/-- The BYTE rows of READ_CHECKSUM (R89). -/
theorem decodeByte_readChecksum {c : Context} (h : c.state = .readChecksum) (b : Byte) :
    decodeByte c b = if c.check = some b then .chkPass b else .chkFail b := by
  simp only [decodeByte, h]

end Sys2Proof

namespace Sys2Proof.Machine

/-- Which row a byte in READ_CHECKSUM takes when the buffer holds the Message `m` (R132, R133). -/
theorem decodeEvent_readChecksum {s : State} {m : List Byte} (hs : s.state = .readChecksum) (hm : s.holdsMessage m)
    (b : Byte) :
    decodeEvent s.context (eventWord 0#2 b) =
      if b = chk s.cfg.chk s.addr_r s.len_r m then .chkPass b else .chkFail b := by
  have hcheck : s.context.check = some (chk s.cfg.chk s.addr_r s.len_r m) := checksum_of_holdsMessage hm
  rw [decodeEvent_byte, decodeByte_readChecksum hs, hcheck]
  simp only [Option.some.injEq, eq_comm]

/-- CHK.PASS as a whole next state (R132). -/
theorem chkPassEffect_eq (b : Byte) (s : State) :
    chkPassEffect b s = .next { s with pend := .pkt, state := .seekStart, fbuf := s.ifRescan [] s.fbuf } := by
  simp only [chkPassEffect, State.clearLog_eq, State.emitPacket]

/-- While a packet is pending, the packet port shows the Address and the Message that the block holds (R33, R50). -/
theorem packetPort_of_holdsMessage {s : State} {ty : Byte} {p : List Byte} (hp : s.pend = .pkt)
    (hm : s.holdsMessage (ty :: p)) :
    s.pkt_valid = true ∧ s.pkt_addr = some s.addr_r ∧ s.packet = some { messageType := ty, payload := p } := by
  have hv : s.pkt_valid = true := by simp [State.pkt_valid, hp]
  exact ⟨hv, if_pos hv, packet_of_holdsMessage hm⟩

/-- CHK.FAIL as a whole next state, when the buffer holds the Message `m` (R133). -/
theorem chkFailEffect_of_holdsMessage {s : State} {m : List Byte} (hm : s.holdsMessage m) (b : Byte) :
    chkFailEffect b s =
      .next { s with
        pend := .err
        state := .seekStart
        erec := { e_kind := .checksumMismatch, e_cause := .range, e_state := .readChecksum, e_addr := s.addr_r,
                  e_len := s.len_r, e_count := s.len_r, e_got := b, e_exp := chk s.cfg.chk s.addr_r s.len_r m, e_tcode := 0 }
        rpl := s.ifRescan ((s.fbuf ++ [b]) ++ s.rpl) s.rpl
        fbuf := s.ifRescan [] s.fbuf } := by
  simp only [chkFailEffect, checksum_of_holdsMessage hm, State.queueReplay_logByte, State.raiseError, ErrRec.zero]

/-- Settles O8: the matching byte takes CHK.PASS's row, whose effect writes neither `addr_r` nor the buffer, so the port shows the
Message received. -/
theorem chkPassPresentsPacket : Obligations.ChkPassPresentsPacket := by
  intro s b ty p ht hs hm hb
  have hd : decodeEvent s.context (eventWord 0#2 b) = .chkPass b :=
    (decodeEvent_readChecksum hs hm b).trans (if_pos hb)
  have hexec := (exec_of_decodeEvent ht hd).trans (chkPassEffect_eq b s)
  refine ⟨hd, hexec, fun t hnext => ?_⟩
  obtain rfl := Host.Outcome.next.inj (hexec.symm.trans hnext)
  exact packetPort_of_holdsMessage rfl hm

/-- Settles O9: a byte other than the checksum takes CHK.FAIL's row, whose record holds the two. -/
theorem chkFailReportsMismatch : Obligations.ChkFailReportsMismatch := by
  intro s b m ht hs hm hb
  have hd : decodeEvent s.context (eventWord 0#2 b) = .chkFail b :=
    (decodeEvent_readChecksum hs hm b).trans (if_neg hb)
  exact ⟨hd, (exec_of_decodeEvent ht hd).trans (chkFailEffect_of_holdsMessage hm b)⟩

/-- The model's sum of bytes is the library's sum of their values (R8). -/
theorem sumBytes_eq_sum (m : List Byte) : sumBytes m = (m.map BitVec.toNat).sum := by
  induction m with
  | nil => rfl
  | cons b m ih => simp only [sumBytes, ih, List.map_cons, List.sum_cons]

/-- `NOT8` is a subtraction without borrow (R8). -/
theorem toNat_not8 (v : Byte) : (not8 v).toNat = 0xFF - v.toNat :=
  BitVec.toNat_sub_of_le (by bv_omega)

/-- Settles O53: the byte that `NOT8` is applied to is the sum modulo 256. -/
theorem referenceChecksumFormula : Obligations.ReferenceChecksumFormula := by
  refine ⟨fun a l m => ?_, by decide⟩
  simp only [chk, chkRef, toNat_not8, BitVec.toNat_ofNat, sumBytes_eq_sum, Nat.reducePow]

end Sys2Proof.Machine
end

section
/-! Transport error and reserved kind (R142, R143), and the events offered outside RUNNING (R144). TRANSPORT.ERROR is given as a
whole next state; that TERMINATED lasts follows from which effects write `run`. -/

namespace Sys2Proof.Machine

/-- The record when no frame is open: the fields of a completed frame stay out of it (R142). -/
theorem transportRecord_of_seekStart {s : State} (h : s.state = .seekStart) (c : Byte) :
    transportRecord c s = { ErrRec.zero with e_kind := .transportError, e_tcode := c } :=
  if_pos h

/-- The record of an attempted frame cut short (R142). -/
theorem transportRecord_of_ne_seekStart {s : State} (h : s.state ≠ .seekStart) (c : Byte) :
    transportRecord c s =
      { ErrRec.zero with
        e_kind := .transportError, e_state := s.state, e_addr := s.addr_r, e_len := s.len_r, e_count := s.received,
        e_tcode := c } :=
  if_neg h

/-- TRANSPORT.ERROR as a whole next state (R142). -/
theorem transportErrorEffect_eq (c : Byte) (s : State) :
    transportErrorEffect c s =
      .next { s with
        run := .terminated
        pend := .err
        state := .seekStart
        erec := transportRecord c s
        fbuf := s.ifRescan [] s.fbuf } := by
  simp only [transportErrorEffect, State.clearLog_eq, State.raiseError]

/-- The writers of `run` (R21): besides RESET, TRANSPORT.ERROR and START. -/
theorem effect_run_cases {i : Instr} {s t : State} (hr : isReset i = false) (h : effect i s = .next t) :
    t.run = s.run ∨ ((∃ c, i = .transportError c) ∧ t.run = .terminated) ∨ ((∃ p e, i = .start p e) ∧ t.run = .running) := by
  cases i with
  | transportError c => cases h; exact .inr (.inl ⟨⟨c, rfl⟩, rfl⟩)
  | start p e => cases h; exact .inr (.inr ⟨⟨p, e, rfl⟩, rfl⟩)
  | reset _ _ _ => cases hr
  | rsvKind _ => cases h
  | msgStore _ => obtain ⟨-, rfl⟩ := msgStoreEffect_next h; exact .inl rfl
  | chkFail _ => obtain ⟨_, -, rfl⟩ := chkFailEffect_next h; exact .inl rfl
  | pktAccept _ _ => obtain ⟨_, -, rfl⟩ := pktAcceptEffect_next h; exact .inl rfl
  | replayByte =>
    simp only [effect, replayByteEffect] at h
    split at h
    · cases h; exact .inl rfl
    · exact .inl (byteEffect_frame h).1
  | _ => cases h; exact .inl rfl

/-- Only RESET leaves TERMINATED: START, which writes RUNNING, is enabled in IDLE alone (R142, R154). -/
theorem exec_run_of_terminated {i : Instr} {s t : State} (hrun : s.run = .terminated) (hr : isReset i = false)
    (h : exec i s = .next t) : t.run = .terminated := by
  rcases exec_next_cases h with ⟨he, heff⟩ | ⟨-, rfl⟩
  · rcases effect_run_cases hr heff with hkept | ⟨-, hterm⟩ | ⟨⟨p, e, rfl⟩, -⟩
    · exact hkept.trans hrun
    · exact hterm
    · have hidle := (enabled_start_iff p e s).mp he
      rw [hrun] at hidle
      cases hidle
  · exact hrun

/-- The input side takes nothing outside RUNNING (R150). -/
theorem not_takesInput_of_run_ne {s : State} (h : s.run ≠ .running) : ¬s.takesInput :=
  fun ⟨hrun, _⟩ => h hrun

/-- Settles O11: the TERR word decodes to TRANSPORT.ERROR in every frame state, the record has its two forms, and of the effects
that write `run` only RESET's can act on a terminated block. -/
theorem transportErrorTerminates : Obligations.TransportErrorTerminates := by
  refine ⟨fun s c ht => ?_, fun s hrun => ?_, fun i s t hrun hr h => exec_run_of_terminated hrun hr h⟩
  · have hd : decodeEvent s.context (eventWord 2#2 c) = .transportError c := decodeEvent_terr s.context c
    have hexec := (exec_of_decodeEvent ht hd).trans (transportErrorEffect_eq c s)
    refine ⟨hd, fun hs => hexec.trans ?_, fun hs => hexec.trans ?_⟩
    · simp only [transportRecord_of_seekStart hs, ErrRec.zero, ← hs]
    · simp only [transportRecord_of_ne_seekStart hs, ErrRec.zero, State.received]
  · exact (rx_ready_eq_false_iff s).mpr (not_takesInput_of_run_ne (by simp [hrun]))

/-- Settles O22: a selected event operation would be enabled, and so the input side ready. -/
theorem noEventOutsideRunning : Obligations.NoEventOutsideRunning := by
  intro x s i hrun
  have hclosed := not_takesInput_of_run_ne hrun
  refine ⟨(rx_ready_eq_false_iff s).mpr hclosed, fun hsel hf => hclosed ?_⟩
  exact ((enabled_event_iff s hf).mp (enabled_of_select hsel)).1

/-- Settles O12: kind 3 is the last row of R89, and RSV.KIND has no enabling condition to wait for. -/
theorem reservedKindIsRefused : Obligations.ReservedKindIsRefused :=
  fun c x => ⟨decodeEvent_reserved c x, fun _ => rfl⟩

end Sys2Proof.Machine
end

section
/-! Output delivery and start (R150 to R154). An operation whose row does not apply changes nothing, one whose row applies has
its effect, and the input side takes an event exactly where no row before it in R232's order can apply. -/

namespace Sys2Proof.Machine

/-- RSV.KIND apart, which refuses in any state (R143), an operation that is not enabled changes nothing. -/
theorem exec_of_disabled {i : Instr} {s : State} (hi : ∀ x, i ≠ .rsvKind x) (h : enabled i s = false) :
    exec i s = .next s := by
  cases i with
  | rsvKind x => exact absurd rfl (hi x)
  | reset _ _ _ => cases h
  | enc _ _ _ => cases h
  | _ => exact whenEnabled_of_disabled _ h

/-- The Length of a held Message counts the MessageType, so `pkt_plen` is the Payload's length (R33, R50). -/
theorem payloadLength_of_holdsMessage {s : State} {ty : Byte} {p : List Byte} (hm : s.holdsMessage (ty :: p)) :
    (s.len_r - 1).toNat = p.length := by
  obtain ⟨hlen, -⟩ := hm
  rw [List.length_cons] at hlen
  bv_omega

/-- The MessageType on the packet port is the first byte of the held Message (R33, R50). -/
theorem pkt_type_of_holdsMessage {s : State} {ty : Byte} {p : List Byte} (hv : s.pkt_valid = true)
    (hm : s.holdsMessage (ty :: p)) : s.pkt_type = some ty := by
  obtain ⟨-, hread⟩ := hm
  exact (if_pos hv).trans (hread 0 (Nat.succ_pos _))

/-- The Payload on the packet port is the rest of the held Message (R33, R50). -/
theorem pkt_payload_of_holdsMessage {s : State} {ty : Byte} {p : List Byte} (hv : s.pkt_valid = true)
    (hm : s.holdsMessage (ty :: p)) {i : Nat} (hi : i < p.length) : s.pkt_payload i = p[i]? := by
  have hcond : (s.pkt_valid && decide (i < (s.len_r - 1).toNat)) = true := by
    simp only [hv, payloadLength_of_holdsMessage hm, hi, decide_true, Bool.and_self]
  obtain ⟨-, hread⟩ := hm
  exact (if_pos hcond).trans (hread (i + 1) (Nat.succ_lt_succ hi))

/-- PKT.ACCEPT as a whole next state, when the buffer holds the Message (R151). -/
theorem pktAcceptEffect_of_holdsMessage {s : State} {ty : Byte} {p : List Byte} (hm : s.holdsMessage (ty :: p)) :
    pktAcceptEffect s = .next (s.deliverPacket { messageType := ty, payload := p }) := by
  simp only [pktAcceptEffect, packet_of_holdsMessage hm]

/-- With `rst` = 0 a block that takes input selects the offered event: it is not IDLE, nothing is pending, and no replay is
ready (R174, R232). -/
theorem select_of_takesInput {x : Sample} {s : State} (hrst : x.cv.getLsbD 3 = false) (hv : x.rx_valid = true)
    (ht : s.takesInput) : select x s = some (decodeEvent s.context x.ew) := by
  have ⟨hrun, hpend, _⟩ := ht
  rcases select_cases x s with ⟨hr, -⟩ | ⟨-, -, hidle, -⟩ | ⟨-, -, -, hpkt, -⟩ | ⟨-, -, -, herr, -⟩ |
    ⟨-, -, -, -, ⟨hrep, -⟩ | ⟨-, -, -, hsel⟩ | ⟨-, hn, -⟩⟩
  · exact absurd hr (Bool.eq_false_iff.mp hrst)
  · cases hrun.symm.trans hidle
  · cases hpend.symm.trans hpkt
  · cases hpend.symm.trans herr
  · exact absurd ht (not_takesInput_of_replayReady hrep)
  · exact hsel
  · exact absurd ⟨hv, ht⟩ hn

/-- An event operation is selected by the last row of R232's order alone. -/
theorem taken_of_select_event {x : Sample} {s : State} {i : Instr} (h : select x s = some i) (hf : formatOf i = .evt10) :
    x.cv.getLsbD 3 = false ∧ x.rx_valid = true ∧ s.takesInput := by
  rcases select_cases x s with ⟨-, hsel⟩ | ⟨-, -, -, hsel⟩ | ⟨-, -, -, -, hsel⟩ | ⟨-, -, -, -, hsel⟩ |
    ⟨hrst, -, -, -, ⟨-, hsel⟩ | ⟨-, hv, ht, hsel⟩ | ⟨-, -, hsel⟩⟩ <;>
    rw [hsel] at h <;> cases h
  · cases hf
  · cases hf
  · cases hf
  · cases hf
  · cases hf
  · exact ⟨hrst, hv, ht⟩

/-- Settles O13: the port's entries are those of the held Message, and PKT.ACCEPT delivers it; its row needs `pend` = PKT. -/
theorem pktAcceptDeliversPacket : Obligations.PktAcceptDeliversPacket := by
  refine ⟨fun s a e ty p hp hm => ?_, fun s a e hp => ?_⟩
  · obtain ⟨hv, haddr, -⟩ := packetPort_of_holdsMessage hp hm
    refine ⟨haddr, pkt_type_of_holdsMessage hv hm, if_pos hv, fun i hi => pkt_payload_of_holdsMessage hv hm hi, ?_⟩
    exact (exec_of_enabled ((enabled_pktAccept_iff a e s).mpr hp)).trans (pktAcceptEffect_of_holdsMessage hm)
  · exact ⟨beq_eq_false_iff_ne.mpr hp,
      exec_of_disabled nofun (Bool.eq_false_iff.mpr (mt (enabled_pktAccept_iff a e s).mp hp))⟩

/-- Settles O21: readiness is R150's condition, under which the event is what R232's order comes to, and without which it is
not. -/
theorem inputIsTakenExactlyWhenReady : Obligations.InputIsTakenExactlyWhenReady := by
  refine ⟨rx_ready_eq_true_iff, fun x s => ?_⟩
  rw [rx_ready_eq_true_iff]
  constructor
  · rintro ⟨i, hsel, hf⟩
    exact taken_of_select_event hsel hf
  · rintro ⟨hrst, hv, ht⟩
    exact ⟨_, select_of_takesInput hrst hv ht, formatOf_decodeEvent _ _⟩

/-- Settles O14: ERR.ACCEPT's effect is the return from the error (R205), which writes `pend` and the delivered sequence alone;
its row needs `pend` = ERR. -/
theorem errAcceptDeliversRecord : Obligations.ErrAcceptDeliversRecord := by
  refine ⟨fun s a p herr => ?_, fun s a p herr => ?_⟩
  · exact exec_of_enabled ((enabled_errAccept_iff a p s).mpr herr)
  · exact ⟨beq_eq_false_iff_ne.mpr herr,
      exec_of_disabled nofun (Bool.eq_false_iff.mpr (mt (enabled_errAccept_iff a p s).mp herr))⟩

/-- Settles O15: START's effect writes `run` alone, and its row needs `run` = IDLE. -/
theorem startLeavesIdle : Obligations.StartLeavesIdle := by
  refine ⟨fun s p e hidle => ?_, fun s p e hidle => ?_⟩
  · exact exec_of_enabled ((enabled_start_iff p e s).mpr hidle)
  · exact exec_of_disabled nofun (Bool.eq_false_iff.mpr (mt (enabled_start_iff p e s).mp hidle))

end Sys2Proof.Machine
end

section
/-! RESCAN replay (R173). The input side takes nothing while bytes are queued, so the operation of BYTE(b) is compared on an
empty queue: with the invariants it answers a next state, and an event operation only puts bytes in front of the queue (R172),
so what stood there stays behind them. -/

namespace Sys2Proof.Machine

/-- Queueing the log commutes with bytes at the end of the queue (R172). -/
theorem State.queueReplay_append_rpl (s : State) (q : List Byte) :
    State.queueReplay { s with rpl := s.rpl ++ q } = { s.queueReplay with rpl := s.queueReplay.rpl ++ q } := by
  simp only [State.queueReplay_eq, State.ifRescan]
  split
  · rw [List.append_assoc]
  · rfl

/-- The entry of a frame error that queues the log commutes with bytes at the end of the queue (R172, R204). -/
theorem State.raiseError_queueReplay_append_rpl (r : ErrRec) (s : State) (q : List Byte) :
    (State.queueReplay { s with rpl := s.rpl ++ q }).raiseError r =
      { s.queueReplay.raiseError r with rpl := s.queueReplay.rpl ++ q } := by
  rw [State.queueReplay_append_rpl]
  rfl

/-- An event operation keeps the end of the replay queue, and does not depend on it. -/
theorem effect_append_rpl {i : Instr} {s t : State} (q : List Byte) (hf : formatOf i = .evt10) (h : effect i s = .next t) :
    effect i { s with rpl := s.rpl ++ q } = .next { t with rpl := t.rpl ++ q } := by
  cases i with
  | reset _ _ _ | start _ _ | pktAccept _ _ | errAccept _ _ | replayByte | enc _ _ _ => cases hf
  | rsvKind _ => cases h
  | msgStore b =>
    obtain ⟨hlt, rfl⟩ := msgStoreEffect_next h
    exact if_pos hlt
  | lenReject b =>
    cases h
    exact congrArg Host.Outcome.next ((s.logByte b).raiseError_queueReplay_append_rpl _ q)
  | frameEos _ =>
    cases h
    exact congrArg Host.Outcome.next (s.raiseError_queueReplay_append_rpl _ q)
  | chkFail b =>
    obtain ⟨c, hc, rfl⟩ := chkFailEffect_next h
    have hq : State.checksum { s with rpl := s.rpl ++ q } = some c := hc
    simp only [effect, chkFailEffect, hq]
    exact congrArg Host.Outcome.next ((s.logByte b).raiseError_queueReplay_append_rpl _ q)
  | _ => cases h; rfl

/-- In READ_CHECKSUM the whole Message is in the buffer, so the checksum has a value (R122, (I-e) of R35). -/
theorem State.Inv.exists_checksum {s : State} (h : s.Inv) (hs : s.state = .readChecksum) : ∃ c, s.checksum = some c := by
  obtain ⟨hrem, -, -⟩ := h.checksum_range hs
  have hall : s.received = s.len_r := by simp [State.received, hrem]
  obtain ⟨m, hm⟩ := exists_message_of_written (hall ▸ h.received_written (.inr hs))
  exact ⟨_, checksum_of_holdsMessage ((message_eq_some_iff s m).mp hm)⟩

/-- With the invariants every byte's effect answers a next state (R35, R55). -/
theorem State.Inv.exists_byteEffect_next {s : State} (h : s.Inv) (b : Byte) : ∃ t, byteEffect b s = .next t := by
  cases hs : s.state with
  | seekStart =>
    rw [byteEffect_seekStart hs]
    split <;> exact ⟨_, rfl⟩
  | readAddress => exact ⟨_, byteEffect_readAddress hs b⟩
  | readLength =>
    rw [byteEffect_readLength hs]
    split <;> exact ⟨_, rfl⟩
  | readMessage =>
    obtain ⟨hpos, hrem, hlen⟩ := h.message_range hs
    rw [byteEffect_readMessage hs]
    exact ⟨_, msgStoreEffect_of_received_lt b (received_lt_maxLen hpos hrem hlen)⟩
  | readChecksum =>
    obtain ⟨c, hc⟩ := h.exists_checksum hs
    rw [byteEffect_readChecksum hs]
    split
    · exact ⟨_, rfl⟩
    · simp only [chkFailEffect, hc]
      exact ⟨_, rfl⟩

/-- The invariants bound the replay queue from above only: they hold with an empty one. -/
theorem State.Inv.with_empty_rpl {s : State} (h : s.Inv) : State.Inv { s with rpl := [] } :=
  { h with
    idle_quiet := fun hrun => have ⟨hstate, hpend, hlog, _⟩ := h.idle_quiet hrun; ⟨hstate, hpend, hlog, rfl⟩
    terminated_quiet := fun hrun => have ⟨hstate, hlog, _⟩ := h.terminated_quiet hrun; ⟨hstate, hlog, rfl⟩
    queue_bound := Nat.zero_le _
    cursor_empty := fun hcursor => ⟨(h.cursor_empty hcursor).1, rfl⟩
    queue_open := fun _ hq => absurd rfl hq }

/-- An enabled REPLAY.BYTE runs the effect of the operation that the head byte selects, on the queue already shortened (R173). -/
theorem exec_replayByte_of_cons {s : State} {b : Byte} {rest : List Byte} (hmode : s.cfg.resync = .rescan)
    (hrun : s.run = .running) (hpend : s.pend = .none) (hq : s.rpl = b :: rest) :
    exec .replayByte s = effect (decodeEvent s.context (eventWord 0#2 b)) { s with rpl := rest } := by
  have hne : s.rpl ≠ [] := by simp [hq]
  calc exec .replayByte s
      = replayByteEffect s := exec_of_enabled ((enabled_replayByte_iff s).mpr ⟨hmode, hrun, hpend, hne⟩)
    _ = byteEffect b { s with rpl := rest } := by simp only [replayByteEffect, hq]
    _ = effect (decodeByte s.context b) { s with rpl := rest } := byteEffect_eq_effect b _
    _ = effect (decodeEvent s.context (eventWord 0#2 b)) { s with rpl := rest } := by rw [decodeEvent_byte]

/-- Settles O17: on the empty queue the input side is ready and the selected operation answers a state `t`; on the rest of the
queue the same operation answers `t` with that rest behind what it queued. -/
theorem replayByteRunsSelectedOperation : Obligations.ReplayByteRunsSelectedOperation := by
  intro s b rest hinv hmode hrun hpend hq
  obtain ⟨t, ht⟩ := hinv.with_empty_rpl.exists_byteEffect_next b
  have heff : effect (decodeEvent s.context (eventWord 0#2 b)) { s with rpl := [] } = .next t := by
    rw [decodeEvent_byte]
    exact (byteEffect_eq_effect b _).symm.trans ht
  have hready : State.takesInput { s with rpl := [] } := ⟨hrun, hpend, .inr rfl⟩
  refine ⟨t, (exec_of_decodeEvent hready rfl).trans heff, ?_⟩
  exact (exec_replayByte_of_cons hmode hrun hpend hq).trans (effect_append_rpl rest (formatOf_decodeEvent _ _) heff)

end Sys2Proof.Machine
end

section
/-! The reference frame encoder (R190, R191): its branches exclude one another, and MAX_LEN <= 255 lets the Length of an
accepted Payload fit in a byte. -/

namespace Sys2Proof.Machine

/-- A Length that MAX_LEN admits is its own byte's value (R190). -/
theorem toNat_ofNat_of_le_maxLen {cfg : Params} {n : Nat} (h : n ≤ cfg.maxLen.val) : (BitVec.ofNat 8 n).toNat = n := by
  have hmax := cfg.maxLen.le
  exact Nat.mod_eq_of_lt (by omega)

/-- The encoder's result on a Payload whose Length fits (R190). -/
theorem encFrame_of_length_le {cfg : Params} {p : List Byte} (h : p.length + 1 ≤ cfg.maxLen.val) (a ty : Byte) :
    encFrame cfg a ty p = .frame ([0xFF, a, BitVec.ofNat 8 (p.length + 1)] ++ [ty] ++ p ++
      [chk cfg.chk a (BitVec.ofNat 8 (p.length + 1)) ([ty] ++ p)]) :=
  if_neg (Nat.not_lt.mpr h)

/-- The encoder's result on a Payload whose Length exceeds MAX_LEN (R191). -/
theorem encFrame_of_maxLen_lt {cfg : Params} {p : List Byte} (h : cfg.maxLen.val < p.length + 1) (a ty : Byte) :
    encFrame cfg a ty p = .error .frameTooLarge p.length :=
  if_pos h

/-- The encoder fails exactly when the Length exceeds MAX_LEN (R191). -/
theorem encFrame_eq_error_iff (cfg : Params) (a ty : Byte) (p : List Byte) :
    (∃ k n, encFrame cfg a ty p = .error k n) ↔ cfg.maxLen.val < p.length + 1 := by
  constructor
  · rintro ⟨k, n, herr⟩
    refine Nat.lt_of_not_le fun hle => ?_
    rw [encFrame_of_length_le hle] at herr
    cases herr
  · exact fun h => ⟨_, _, encFrame_of_maxLen_lt h a ty⟩

/-- ENC answers in every state, and writes the encoder's result alone (R193). -/
theorem exec_enc (a ty : Byte) (p : List Byte) (s : State) :
    exec (.enc a ty p) s = .next { s with encOut := some (encFrame s.cfg a ty p) } := rfl

/-- Settles O18: the byte is the Length reduced to 8 bits, which MAX_LEN <= 255 leaves unchanged. -/
theorem encBuildsFrame : Obligations.EncBuildsFrame := by
  intro s a ty p hfit
  refine ⟨BitVec.ofNat 8 (p.length + 1), toNat_ofNat_of_le_maxLen hfit, ?_⟩
  rw [exec_enc, encFrame_of_length_le hfit]

/-- Settles O19: ENC's result is the encoder's, which is an error in the branch of a Length above MAX_LEN and in no other. -/
theorem encRejectsLongPayload : Obligations.EncRejectsLongPayload := by
  refine ⟨fun s a ty p hlong => ?_, fun s a ty p => ⟨_, exec_enc a ty p s, ?_⟩⟩
  · rw [exec_enc, encFrame_of_maxLen_lt hlong]
  · simp only [Option.some.injEq, encFrame_eq_error_iff]

end Sys2Proof.Machine
end

section
/-! The decoder inverts the encoder, and `select` is the enabling conditions (R89, R90, R232). A row and its word determine the
operation, so with the invariants an operation is selected at the pins exactly when its whole row applies there. -/

namespace Sys2Proof.Machine

/-- A word belongs to at most one row of the event format that applies in a context (R89, R90). -/
theorem decodeEvent_of_selectedIn {c : Context} {i : Instr} {ew : EventWord} (he : encode i = some (.event ew))
    (hs : i.selectedIn c = true) : decodeEvent c ew = i := by
  cases i with
  | seekSkip b =>
    obtain ⟨hstate, hb⟩ : c.state = .seekStart ∧ b ≠ START_BYTE := by simpa [Instr.selectedIn] using hs
    cases he
    exact (decodeEvent_byte c b).trans ((decodeByte_seekStart hstate b).trans (if_neg hb))
  | seekSync =>
    have hstate : c.state = .seekStart := by simpa [Instr.selectedIn] using hs
    cases he
    exact (decodeEvent_byte c _).trans ((decodeByte_seekStart hstate _).trans (if_pos rfl))
  | seekEos x =>
    have hstate : c.state = .seekStart := by simpa [Instr.selectedIn] using hs
    cases he
    exact (decodeEvent_eos c x).trans (if_pos hstate)
  | addrLatch b =>
    have hstate : c.state = .readAddress := by simpa [Instr.selectedIn] using hs
    cases he
    exact (decodeEvent_byte c b).trans (decodeByte_readAddress hstate b)
  | lenAccept b =>
    obtain ⟨⟨hstate, hpos⟩, hle⟩ : (c.state = .readLength ∧ 1 ≤ b.toNat) ∧ b.toNat ≤ c.cfg.maxLen.val := by
      simpa [Instr.selectedIn] using hs
    cases he
    exact (decodeEvent_byte c b).trans ((decodeByte_readLength hstate b).trans (if_pos ⟨hpos, hle⟩))
  | lenReject b =>
    obtain ⟨hstate, hb⟩ : c.state = .readLength ∧ (b = 0 ∨ c.cfg.maxLen.val < b.toNat) := by
      simpa [Instr.selectedIn] using hs
    cases he
    exact (decodeEvent_byte c b).trans ((decodeByte_readLength hstate b).trans (if_neg (not_lengthInRange hb)))
  | msgStore b =>
    have hstate : c.state = .readMessage := by simpa [Instr.selectedIn] using hs
    cases he
    exact (decodeEvent_byte c b).trans (decodeByte_readMessage hstate b)
  | chkPass b =>
    obtain ⟨hstate, hcheck⟩ : c.state = .readChecksum ∧ c.check = some b := by simpa [Instr.selectedIn] using hs
    cases he
    exact (decodeEvent_byte c b).trans ((decodeByte_readChecksum hstate b).trans (if_pos hcheck))
  | chkFail b =>
    obtain ⟨hstate, hcheck⟩ : c.state = .readChecksum ∧ c.check ≠ some b := by simpa [Instr.selectedIn] using hs
    cases he
    exact (decodeEvent_byte c b).trans ((decodeByte_readChecksum hstate b).trans (if_neg hcheck))
  | frameEos x =>
    have hstate : c.state ≠ .seekStart := by simpa [Instr.selectedIn] using hs
    cases he
    exact (decodeEvent_eos c x).trans (if_neg hstate)
  | transportError x =>
    cases he
    exact decodeEvent_terr c x
  | rsvKind x =>
    cases he
    exact decodeEvent_reserved c x
  | _ => cases he

/-- While IDLE has nothing pending, a control vector belongs to at most one row that applies (R85, R203). -/
theorem decodeControl_of_selectedIn {c : Context} {i : Instr} {cv : ControlVector} (hidle : c.run = .idle → c.pend = .none)
    (he : encode i = some (.control cv)) (hs : i.selectedIn c = true) : decodeControl c cv = .ok i := by
  cases i with
  | reset st pr er =>
    cases he
    simp [decodeControl]
  | start pr er =>
    have hrun : c.run = .idle := by simpa [Instr.selectedIn] using hs
    cases he
    simp [decodeControl, hrun]
  | pktAccept st er =>
    have hpend : c.pend = .pkt := by simpa [Instr.selectedIn] using hs
    have hrun : c.run ≠ .idle := fun h => by simp [hidle h] at hpend
    cases he
    simp [decodeControl, hpend, hrun]
  | errAccept st pr =>
    have hpend : c.pend = .err := by simpa [Instr.selectedIn] using hs
    have hrun : c.run ≠ .idle := fun h => by simp [hidle h] at hpend
    cases he
    simp [decodeControl, hpend, hrun]
  | _ => cases he

/-- The selected operation's word is the control vector, and its row applies (R85). -/
theorem decodeControl_ok {c : Context} {cv : ControlVector} {i : Instr} (h : decodeControl c cv = .ok i) :
    encode i = some (.control cv) ∧ i.selectedIn c = true := by
  have hword := controlVector_eta cv
  rcases decodeControl_cases c cv with ⟨hrst, hd⟩ | ⟨hrst, hstart, hrun, hd⟩ | ⟨hrst, -, hpkt, hpend, hd⟩ |
    ⟨hrst, -, herr, hpend, hd⟩ | ⟨-, -, -, -, hd⟩ <;> rw [hd] at h <;> cases h
  · rw [hrst] at hword
    exact ⟨by rw [encode, hword], rfl⟩
  · rw [hrst, hstart] at hword
    exact ⟨by rw [encode, hword], by simp [Instr.selectedIn, hrun]⟩
  · rw [hrst, hpkt] at hword
    exact ⟨by rw [encode, hword], by simp [Instr.selectedIn, hpend]⟩
  · rw [hrst, herr] at hword
    exact ⟨by rw [encode, hword], by simp [Instr.selectedIn, hpend]⟩

/-- A row that applies has operands that the parameters allow. -/
theorem wellFormed_of_selectedIn {c : Context} {i : Instr} (h : i.selectedIn c = true) : i.wellFormed c.cfg = true := by
  cases i with
  | lenReject b =>
    have hb : b = 0 ∨ c.cfg.maxLen.val < b.toNat := by simp [Instr.selectedIn] at h; exact h.2
    rcases hb with rfl | hlt
    · rfl
    · simp [Instr.wellFormed, hlt]
  | seekSkip b | lenAccept b => simp_all [Instr.selectedIn, Instr.wellFormed]
  | replayByte => exact h
  | _ => rfl

/-- Settles O31: a row and its word determine the operation, in both formats that have words. -/
theorem decodeInvertsEncode : Obligations.DecodeInvertsEncode := by
  intro c i w hidle hs he
  cases w with
  | event ew => exact congrArg Except.ok (decodeEvent_of_selectedIn he hs)
  | control cv => exact decodeControl_of_selectedIn hidle he hs

/-- Settles O32: the decoder's answer has the word and a row that applies, and such a row allows its operands. -/
theorem encodeInvertsDecode : Obligations.EncodeInvertsDecode := by
  intro c i w h
  have ⟨hword, hrow⟩ : encode i = some w ∧ i.selectedIn c = true := by
    cases w with
    | event ew =>
      cases h
      exact ⟨encode_decodeEvent c ew, selectedIn_decodeEvent c ew⟩
    | control cv => exact decodeControl_ok h
  exact ⟨hword, hrow, wellFormed_of_selectedIn hrow⟩

/-- Settles O23: the decoder's answer is such an operation, and a row and its word determine it. -/
theorem operationMapIsTotalAndUnambiguous : Obligations.OperationMapIsTotalAndUnambiguous := fun s ew =>
  ⟨decodeEvent s.context ew,
    ⟨formatOf_decodeEvent _ ew, encode_decodeEvent _ ew, selectedIn_decodeEvent _ ew⟩,
    fun _ _ he hs => (decodeEvent_of_selectedIn he hs).symm, rfl⟩

/-- A control vector that selects nothing has `rst` = 0 (R220). -/
theorem rst_of_decodeControl_error {c : Context} {cv : ControlVector} {r : DecodeReject}
    (h : decodeControl c cv = .error r) : cv.getLsbD 3 = false := by
  rcases decodeControl_cases c cv with ⟨-, hd⟩ | ⟨hrst, -⟩ | ⟨hrst, -⟩ | ⟨hrst, -⟩ | ⟨hrst, -⟩
  · rw [hd] at h
    cases h
  all_goals exact hrst

/-- What an edge can select: the control vector's operation, a replay, or the offered event's operation (R232). -/
theorem select_some_cases {x : Sample} {s : State} {i : Instr} (h : select x s = some i) :
    decodeControl s.context x.cv = .ok i ∨ (x.cv.getLsbD 3 = false ∧ s.replayReady = true ∧ i = .replayByte) ∨
      (x.cv.getLsbD 3 = false ∧ x.rx_valid = true ∧ s.takesInput ∧ i = decodeEvent s.context x.ew) := by
  unfold select at h
  split at h
  · next hd =>
    cases h
    exact .inl hd
  · next hd =>
    have hrst := rst_of_decodeControl_error hd
    split at h
    · next hr =>
      cases h
      exact .inr (.inl ⟨hrst, hr, rfl⟩)
    · obtain ⟨hready, hi⟩ := Option.ite_none_right_eq_some.mp h
      obtain ⟨hv, hready⟩ := Bool.and_eq_true_iff.mp hready
      exact .inr (.inr ⟨hrst, hv, (rx_ready_eq_true_iff s).mp hready, (Option.some.inj hi).symm⟩)

/-- A control vector's operation is selected before any other (R232). -/
theorem select_of_decodeControl {x : Sample} {s : State} {i : Instr} (h : decodeControl s.context x.cv = .ok i) :
    select x s = some i := by
  simp only [select, h]

/-- With `rst` = 0 a replay that is ready is selected: the block is not IDLE and nothing is pending. -/
theorem select_of_replayReady {x : Sample} {s : State} (hrst : x.cv.getLsbD 3 = false) (h : s.replayReady = true) :
    select x s = some .replayByte := by
  obtain ⟨-, hrun, hpend, -⟩ := (replayReady_eq_true_iff s).mp h
  rcases select_cases x s with ⟨hr, -⟩ | ⟨-, -, hidle, -⟩ | ⟨-, -, -, hpkt, -⟩ | ⟨-, -, -, herr, -⟩ |
    ⟨-, -, -, -, ⟨-, hsel⟩ | ⟨hno, -⟩ | ⟨hno, -⟩⟩
  · exact absurd hr (Bool.eq_false_iff.mp hrst)
  · cases hrun.symm.trans hidle
  · cases hpend.symm.trans hpkt
  · cases hpend.symm.trans herr
  · exact hsel
  · cases h.symm.trans hno
  · cases h.symm.trans hno

/-- REPLAY.BYTE is the one internal operation. -/
theorem formatOf_eq_internal_iff (i : Instr) : formatOf i = .internal ↔ i = .replayByte := by
  cases i <;> simp [formatOf]

/-- What each format asks for at the pins (R85, R89, R150, R173). -/
theorem enabledAt_iff (x : Sample) (i : Instr) (s : State) :
    enabledAt x i s = true ↔
      (formatOf i = .evt10 ∧ s.takesInput ∧ i.selectedIn s.context = true ∧ x.cv.getLsbD 3 = false ∧ x.rx_valid = true ∧
        encode i = some (.event x.ew)) ∨
      (formatOf i = .ctrl4 ∧ i.selectedIn s.context = true ∧ encode i = some (.control x.cv)) ∨
      (i = .replayByte ∧ s.replayReady = true ∧ x.cv.getLsbD 3 = false) := by
  rw [← formatOf_eq_internal_iff]
  unfold enabledAt enabled
  cases hf : formatOf i <;> simp [← rx_ready_eq_true_iff, and_assoc]

/-- A word of the event format is an event word, and one of the control format a control vector (R80, R85). -/
theorem formatOf_of_encode_control {i : Instr} {cv : ControlVector} (h : encode i = some (.control cv)) :
    formatOf i = .ctrl4 := by
  cases i with
  | reset _ _ _ | start _ _ | pktAccept _ _ | errAccept _ _ => rfl
  | _ => cases h

/-- The step's choice and the table's rows agree: with the invariants an operation is selected exactly when its whole row
applies at the pins (R90, R203, R232). -/
theorem State.Inv.select_eq_some_iff {s : State} (h : s.Inv) (x : Sample) (i : Instr) :
    select x s = some i ↔ enabledAt x i s = true := by
  rw [enabledAt_iff]
  constructor
  · intro hsel
    rcases select_some_cases hsel with hd | ⟨hrst, hr, rfl⟩ | ⟨hrst, hv, ht, rfl⟩
    · obtain ⟨hword, hrow⟩ := decodeControl_ok hd
      exact .inr (.inl ⟨formatOf_of_encode_control hword, hrow, hword⟩)
    · exact .inr (.inr ⟨rfl, hr, hrst⟩)
    · exact .inl ⟨formatOf_decodeEvent _ _, ht, selectedIn_decodeEvent _ _, hrst, hv, encode_decodeEvent _ _⟩
  · rintro (⟨-, ht, hrow, hrst, hv, hword⟩ | ⟨-, hrow, hword⟩ | ⟨rfl, hr, hrst⟩)
    · exact (select_of_takesInput hrst hv ht).trans (congrArg some (decodeEvent_of_selectedIn hword hrow))
    · have hquiet : s.context.run = .idle → s.context.pend = .none := fun hrun => (h.idle_quiet hrun).2.1
      exact select_of_decodeControl (decodeControl_of_selectedIn hquiet hword hrow)
    · exact select_of_replayReady hrst hr

/-- With the invariants nothing is selected exactly when no row applies at the pins. -/
theorem State.Inv.select_eq_none_iff {s : State} (h : s.Inv) (x : Sample) :
    select x s = none ↔ ∀ i, enabledAt x i s = false := by
  simp only [Option.eq_none_iff_forall_ne_some, ne_eq, h.select_eq_some_iff, Bool.not_eq_true]

/-- The step of a state whose pins select nothing. -/
theorem step_of_select_none {s : State} (h : select s.sample s = none) : step s = .next s.pastSample := by
  simp only [step, h]

/-- The step of a state whose pins select the operation `i`, through its meaning. -/
theorem step_eq_exec_of_select {s : State} {i : Instr} (h : select s.sample s = some i) : step s = exec i s.pastSample := by
  simp only [step, h]

/-- Settles O24: the two branches of the step. -/
theorem stepRunsSelectedOperation : Obligations.StepRunsSelectedOperation :=
  fun _ => ⟨fun _ => step_eq_exec_of_select, step_of_select_none⟩

/-- Settles O26: an operation enabled at the pins is the selected one. -/
theorem atMostOneOperationEnabled : Obligations.AtMostOneOperationEnabled := by
  intro s x i j hinv hi hj
  rw [← hinv.select_eq_some_iff] at hi hj
  exact Option.some.inj (hi.symm.trans hj)

/-- Settles O27: the selected operation is the enabled one, so the step's two branches are the relation's two cases. -/
theorem stepIsTheTransactionRelation : Obligations.StepIsTheTransactionRelation := by
  intro s t hinv
  simp only [← hinv.select_eq_some_iff, ← hinv.select_eq_none_iff]
  cases hsel : select s.sample s with
  | none => simp [step_of_select_none hsel, eq_comm]
  | some i => simp [step_eq_exec_of_select hsel]

/-- Settles O50: nothing is selected exactly when no row applies. -/
theorem runEndsExactlyWhenNothingIsEnabled : Obligations.RunEndsExactlyWhenNothingIsEnabled := by
  intro e s hinv
  rw [← hinv.select_eq_none_iff]
  simp [runEnded, and_assoc]

/-- Settles O28: `exec` of such an operation is the identity. -/
theorem disabledOperationChangesNothing : Obligations.DisabledOperationChangesNothing :=
  fun _ _ => exec_of_disabled

/-- With no control selected, nothing to replay and no event taken, an edge selects nothing (R232). -/
theorem select_eq_none {x : Sample} {s : State} {r : DecodeReject} (hd : decodeControl s.context x.cv = .error r)
    (hr : s.replayReady = false) (hv : ¬(x.rx_valid = true ∧ s.rx_ready = true)) : select x s = none := by
  rw [← Bool.and_eq_true_iff] at hv
  simp only [select, hd, hr, Bool.false_eq_true, if_false, if_neg hv]

/-- Settles O25: at each level of the cycle order the row whose condition holds gives the selected operation. -/
theorem stepFollowsCycleOrder : Obligations.StepFollowsCycleOrder := by
  rintro s u x rfl rfl
  have hrun : ∀ {i}, decodeControl s.context s.sample.cv = .ok i → step s = exec i s.pastSample :=
    fun hd => step_eq_exec_of_select (select_of_decodeControl hd)
  obtain ⟨hreset, hnoReset⟩ := controlVectorSelects s.context s.sample.cv
  refine ⟨fun hrst => hrun (hreset hrst), fun hrst => ?_⟩
  obtain ⟨hstart, hnoStart⟩ := hnoReset hrst
  refine ⟨fun h => hrun (hstart h.symm), fun hn => ?_⟩
  obtain ⟨hpkt, herr, hnothing⟩ := hnoStart fun h => hn h.symm
  refine ⟨fun h => hrun (hpkt h.symm), fun h => hrun (herr h.symm), fun hnp hne => ?_⟩
  have hd := hnothing (fun h => hnp h.symm) fun h => hne h.symm
  rw [← replayReady_eq_true_iff]
  refine ⟨fun hr => step_eq_exec_of_select (select_of_replayReady hrst hr), fun hr => ⟨fun ⟨hv, hready⟩ => ?_, fun hv => ?_⟩⟩
  · exact step_eq_exec_of_select (select_of_takesInput hrst hv ((rx_ready_eq_true_iff s).mp hready))
  · exact step_of_select_none (select_eq_none hd (Bool.eq_false_iff.mpr hr) hv)

/-- A block that does not take input selects by the control vector and the registers alone (R226). -/
theorem select_of_not_takesInput {s : State} (h : ¬s.takesInput) (cv : ControlVector) (v v' : Bool) (e e' : EventWord) :
    select { cv := cv, rx_valid := v, ew := e } s = select { cv := cv, rx_valid := v', ew := e' } s := by
  simp only [select, (rx_ready_eq_false_iff s).mpr h, Bool.and_false, Bool.false_eq_true, if_false]

/-- RESET at the pins, whatever else is driven on them: its effect looks at none of the other inputs (R220). -/
theorem step_of_rst {s : State} (h : s.sample.cv.getLsbD 3 = true) : step s = execReset false false false s.pastSample := by
  obtain ⟨hreset, -⟩ := controlVectorSelects s.context s.sample.cv
  exact step_eq_exec_of_select (select_of_decodeControl (hreset h))

/-- Settles O43: an event is looked at by a block that takes input alone, and RESET looks at no other input. -/
theorem unsampledInputsMakeNoDifference : Obligations.UnsampledInputsMakeNoDifference := by
  refine ⟨fun s cv v v' e e' l h => ?_, fun s cv cv' v v' e e' l hrst hrst' => ?_⟩
  · have hsel := select_of_not_takesInput h cv v v' e e'
    exact congrArg (fun o => match o with
      | some i => exec i { s with inputs := l }
      | none => .next { s with inputs := l }) hsel
  · exact (step_of_rst (s := { s with inputs := ⟨cv, v, e⟩ :: l }) hrst).trans
      (step_of_rst (s := { s with inputs := ⟨cv', v', e'⟩ :: l }) hrst').symm

/-! ### A bare table word on the pins (log entry 11) -/

/-- In SEEK_START an event word's operation depends on nothing else in the context (R89). -/
theorem decodeEvent_congr_seekStart {c c' : Context} (h : c.state = .seekStart) (h' : c'.state = .seekStart)
    (ew : EventWord) : decodeEvent c ew = decodeEvent c' ew := by
  rcases eventWord_cases ew with ⟨b, rfl⟩ | ⟨b, rfl⟩ | ⟨b, rfl⟩ | ⟨b, rfl⟩
  · rw [decodeEvent_byte, decodeEvent_byte, decodeByte_seekStart h, decodeByte_seekStart h']
  · rw [decodeEvent_eos, decodeEvent_eos, if_pos h, if_pos h']
  · rw [decodeEvent_terr, decodeEvent_terr]
  · rw [decodeEvent_reserved, decodeEvent_reserved]

theorem State.withPacketPending_pend (s : State) : s.withPacketPending.pend = .pkt := by
  unfold State.withPacketPending
  split
  · assumption
  · rfl

theorem State.withErrorPending_pend (s : State) : s.withErrorPending.pend = .err := by
  unfold State.withErrorPending
  split
  · assumption
  · rfl

/-- Making the registers ready leaves the parameters, the deliveries and ENC's result. -/
theorem State.readyFor_frame (s : State) (tw : TableWord) :
    (s.readyFor tw).cfg = s.cfg ∧ (s.readyFor tw).delivered = s.delivered ∧ (s.readyFor tw).encOut = s.encOut := by
  have hpacket : s.withPacketPending.cfg = s.cfg ∧ s.withPacketPending.delivered = s.delivered ∧
      s.withPacketPending.encOut = s.encOut := by
    unfold State.withPacketPending
    split <;> simp
  have herror : s.withErrorPending.cfg = s.cfg ∧ s.withErrorPending.delivered = s.delivered ∧
      s.withErrorPending.encOut = s.encOut := by
    unfold State.withErrorPending
    split <;> simp
  cases tw with
  | event ew => exact ⟨rfl, rfl, rfl⟩
  | control cv =>
    simp only [State.readyFor]
    split
    · exact ⟨rfl, rfl, rfl⟩
    · split
      · exact ⟨rfl, rfl, rfl⟩
      · split
        · exact hpacket
        · split
          · exact herror
          · exact ⟨rfl, rfl, rfl⟩

theorem State.takesInput_readyFor_event (s : State) (ew : EventWord) : (s.readyFor (.event ew)).takesInput := by
  refine ⟨rfl, rfl, ?_⟩
  cases h : s.cfg.resync with
  | cursor => exact .inl h
  | rescan => exact .inr (if_pos h)

/-- The control vector selects in the registers made ready what it selects in the table's context: by its most significant set
bit (R85). -/
theorem decodeControl_readyFor {s : State} {cv : ControlVector} {i : Instr} {p : Params}
    (h : decodeControl (TableWord.context p (.control cv)) cv = .ok i) :
    decodeControl (s.readyFor (.control cv)).context cv = .ok i := by
  refine Eq.trans ?_ h
  obtain ⟨htReset, htNoReset⟩ := controlVectorSelects (TableWord.context p (.control cv)) cv
  obtain ⟨hrReset, hrNoReset⟩ := controlVectorSelects (s.readyFor (.control cv)).context cv
  by_cases h3 : cv.getLsbD 3 = true
  · rw [htReset h3, hrReset h3]
  obtain ⟨htStart, htNoStart⟩ := htNoReset (by simpa only [Bool.not_eq_true] using h3)
  obtain ⟨hrStart, hrNoStart⟩ := hrNoReset (by simpa only [Bool.not_eq_true] using h3)
  by_cases h2 : cv.getLsbD 2 = true
  · rw [htStart ⟨h2, by rw [TableWord.context, if_pos h2]⟩,
      hrStart ⟨h2, by rw [State.readyFor, if_neg h3, if_pos h2, State.context]⟩]
  obtain ⟨htPkt, htErr, -⟩ := htNoStart fun hn => h2 hn.1
  obtain ⟨hrPkt, hrErr, -⟩ := hrNoStart fun hn => h2 hn.1
  by_cases h1 : cv.getLsbD 1 = true
  · rw [htPkt ⟨h1, by rw [TableWord.context, if_neg h2, if_pos h1]⟩,
      hrPkt ⟨h1, by rw [State.readyFor, if_neg h3, if_neg h2, if_pos h1]; exact s.withPacketPending_pend⟩]
  by_cases h0 : cv.getLsbD 0 = true
  · rw [htErr ⟨h0, by rw [TableWord.context, if_neg h2, if_neg h1]⟩,
      hrErr ⟨h0, by rw [State.readyFor, if_neg h3, if_neg h2, if_neg h1, if_pos h0]; exact s.withErrorPending_pend⟩]
  · exact absurd h (by simp only [decodeControl, h3, h2, h1, h0]; exact nofun)

/-- The word on the pins selects its operation. -/
theorem select_readyFor {s : State} {tw : TableWord} {i : Instr} {p : Params} (h : decode (tw.context p) tw = .ok i) :
    select (Sample.ofTableWord tw) (s.readyFor tw) = some i := by
  cases tw with
  | event ew =>
    cases h
    exact (select_of_takesInput BitVec.getLsbD_zero rfl (s.takesInput_readyFor_event ew)).trans
      (congrArg some (decodeEvent_congr_seekStart rfl rfl ew))
  | control cv => exact select_of_decodeControl (decodeControl_readyFor h)

theorem ok_of_toOption {ε α : Type} {r : Except ε α} {a : α} (h : r.toOption = some a) : r = .ok a := by
  cases r with
  | ok b => exact congrArg Except.ok (Option.some.inj h)
  | error e => cases h

/-- Settles O29: the word selects the operation as the table reads it, on registers that are ready for it. -/
theorem fetchWordRunsItsOperation : Obligations.FetchWordRunsItsOperation := by
  intro s nbits w i h
  unfold decodeTableWord at h
  split at h
  · next tw htw =>
    have hsel : select (Sample.ofTableWord tw) (s.readyFor tw) = some i := select_readyFor (ok_of_toOption h)
    obtain ⟨hcfg, hdel, henc⟩ := s.readyFor_frame tw
    refine ⟨{ s.readyFor tw with inputs := s.inputs }, ?_, enabled_of_select hsel, hcfg, rfl, hdel, henc⟩
    simp only [State.withFetchWord, htw]
    exact step_eq_exec_of_select (s := { s.readyFor tw with inputs := _ :: s.inputs }) hsel
  · cases h

/-- Settles O30, by evaluating the decoder on the ten words. -/
theorem writtenOutWordsDecode : Obligations.WrittenOutWordsDecode := by
  unfold Obligations.WrittenOutWordsDecode
  decide

end Sys2Proof.Machine
end

section
/-! The invariants of 10_state.md section 4 (R35) under the step. A state with the invariants is in SEEK_START or inside a frame;
for each of the two there is one introduction lemma, and the effects are checked against them. Log and queue stay bounded
because a byte enters the log only after it has left the queue, or while the queue is empty (R171, R172). -/

namespace Sys2Proof.Machine

/-! ### Introduction of the invariants -/

/-- The invariants in SEEK_START, where no frame is open: the registers of a frame are not constrained there. -/
theorem State.Inv.of_seekStart {t : State} (hstate : t.state = .seekStart) (hlog : t.fbuf = [])
    (hidle : t.run = .idle → t.pend = .none) (hquiet : t.run ≠ .running → t.rpl = [])
    (hcursor : t.cfg.resync = .cursor → t.rpl = []) (hqueue : t.rpl.length ≤ t.cfg.maxLen.val + 3)
    (hpkt : t.pend = .pkt →
      t.rem = 0 ∧ 1 ≤ t.len_r.toNat ∧ t.len_r.toNat ≤ t.cfg.maxLen.val ∧ t.mbuf.written t.len_r.toNat)
    (herr : t.pend = .err → t.erec.e_kind ≠ .none ∧ t.erec.e_kind ≠ .frameTooLarge)
    (hwf : t.mbuf.wf = true) (hwithin : t.mbuf.within t.cfg.maxLen.val = true) : t.Inv where
  idle_quiet h := ⟨hstate, hidle h, hlog, hquiet (by simp [h])⟩
  pending_seeks _ := hstate
  terminated_quiet h := ⟨hstate, hlog, hquiet (by simp [h])⟩
  message_range h := by simp [hstate] at h
  checksum_range h := by simp [hstate] at h
  packet_complete := hpkt
  log_bound := by simp [hlog]
  queue_bound := hqueue
  address_open h := by simp [hstate] at h
  length_open h := by simp [hstate] at h
  received_written h := by simp [hstate] at h
  error_kind := herr
  buffer_wf := hwf
  buffer_within := hwithin
  cursor_empty h := ⟨hlog, hcursor h⟩
  log_seek _ := hlog
  log_address _ := hlog
  log_length _ h := by simp [hstate] at h
  log_message _ h := by simp [hstate] at h
  log_checksum _ h := by simp [hstate] at h
  queue_open h := absurd hstate h

/-- What the registers of an open frame hold in each frame state, (I-d), (I-e) and R31. -/
def State.frameOpen (t : State) : Prop :=
  match t.state with
  | .seekStart => False
  | .readAddress => t.addr_r = 0 ∧ t.len_r = 0 ∧ t.rem = 0 ∧ t.fbuf = []
  | .readLength => t.len_r = 0 ∧ t.rem = 0 ∧ (t.cfg.resync = .rescan → t.fbuf.length = 1)
  | .readMessage =>
    1 ≤ t.rem.toNat ∧ t.rem.toNat ≤ t.len_r.toNat ∧ t.len_r.toNat ≤ t.cfg.maxLen.val ∧
      t.mbuf.written t.received.toNat ∧ (t.cfg.resync = .rescan → t.fbuf.length = 2 + t.received.toNat)
  | .readChecksum =>
    t.rem = 0 ∧ 1 ≤ t.len_r.toNat ∧ t.len_r.toNat ≤ t.cfg.maxLen.val ∧
      t.mbuf.written t.received.toNat ∧ (t.cfg.resync = .rescan → t.fbuf.length = 2 + t.len_r.toNat)

/-- The log of an open frame: at most the Address, the Length and a Message of MAX_LEN bytes (R31, R171). -/
theorem State.frameOpen.log_le {t : State} (h : t.frameOpen) (hcursor : t.cfg.resync = .cursor → t.fbuf = []) :
    t.fbuf.length ≤ t.cfg.maxLen.val + 2 := by
  cases hmode : t.cfg.resync with
  | cursor => simp [hcursor hmode]
  | rescan =>
    unfold State.frameOpen at h
    split at h
    · exact h.elim
    · obtain ⟨-, -, -, hlog⟩ := h
      simp [hlog]
    · obtain ⟨-, -, hlog⟩ := h
      have := hlog hmode
      omega
    · obtain ⟨-, hrem, hlen, -, hlog⟩ := h
      have := hlog hmode
      have := received_toNat hrem
      omega
    · obtain ⟨-, -, hlen, -, hlog⟩ := h
      have := hlog hmode
      omega

/-- The invariants inside a frame, which is open in RUNNING with nothing pending. -/
theorem State.Inv.of_frameOpen {t : State} (h : t.frameOpen) (hrun : t.run = .running) (hpend : t.pend = .none)
    (hcursor : t.cfg.resync = .cursor → t.fbuf = [] ∧ t.rpl = [])
    (hqueue : t.rpl ≠ [] → t.fbuf.length + t.rpl.length ≤ t.cfg.maxLen.val + 2)
    (hwf : t.mbuf.wf = true) (hwithin : t.mbuf.within t.cfg.maxLen.val = true) : t.Inv where
  idle_quiet h := by simp [hrun] at h
  pending_seeks h := absurd hpend h
  terminated_quiet h := by simp [hrun] at h
  message_range hs := by
    simp only [State.frameOpen, hs] at h
    exact ⟨h.1, h.2.1, h.2.2.1⟩
  checksum_range hs := by
    simp only [State.frameOpen, hs] at h
    exact ⟨h.1, h.2.1, h.2.2.1⟩
  packet_complete h := by simp [hpend] at h
  log_bound := Nat.le_succ_of_le (h.log_le fun hc => (hcursor hc).1)
  queue_bound := by
    cases hq : t.rpl with
    | nil => exact Nat.zero_le _
    | cons b q =>
      have := hqueue (by simp [hq])
      rw [hq] at this
      omega
  address_open hs := by
    simp only [State.frameOpen, hs] at h
    exact ⟨h.1, h.2.1, h.2.2.1⟩
  length_open hs := by
    simp only [State.frameOpen, hs] at h
    exact ⟨h.1, h.2.1⟩
  received_written hs := by
    rcases hs with hs | hs <;> simp only [State.frameOpen, hs] at h <;> exact h.2.2.2.1
  error_kind h := by simp [hpend] at h
  buffer_wf := hwf
  buffer_within := hwithin
  cursor_empty := hcursor
  log_seek hs := by simp only [State.frameOpen, hs] at h
  log_address hs := by
    simp only [State.frameOpen, hs] at h
    exact h.2.2.2
  log_length hmode hs := by
    simp only [State.frameOpen, hs] at h
    exact h.2.2 hmode
  log_message hmode hs := by
    simp only [State.frameOpen, hs] at h
    exact h.2.2.2.2 hmode
  log_checksum hmode hs := by
    simp only [State.frameOpen, hs] at h
    exact h.2.2.2.2 hmode
  queue_open _ := hqueue

/-- Outside SEEK_START the invariants describe an open frame. -/
theorem State.Inv.frameOpen {s : State} (h : s.Inv) (hs : s.state ≠ .seekStart) : s.frameOpen := by
  unfold State.frameOpen
  split
  · next hst => exact hs hst
  · next hst =>
    obtain ⟨haddr, hlen, hrem⟩ := h.address_open hst
    exact ⟨haddr, hlen, hrem, h.log_address hst⟩
  · next hst =>
    obtain ⟨hlen, hrem⟩ := h.length_open hst
    exact ⟨hlen, hrem, fun hmode => h.log_length hmode hst⟩
  · next hst =>
    obtain ⟨hpos, hrem, hlen⟩ := h.message_range hst
    exact ⟨hpos, hrem, hlen, h.received_written (.inl hst), fun hmode => h.log_message hmode hst⟩
  · next hst =>
    obtain ⟨hrem, hpos, hlen⟩ := h.checksum_range hst
    exact ⟨hrem, hpos, hlen, h.received_written (.inr hst), fun hmode => h.log_checksum hmode hst⟩

/-- Log and queue leave room for one byte more in the log. -/
def State.hasRoom (s : State) : Prop :=
  s.fbuf.length + s.rpl.length ≤ s.cfg.maxLen.val + 2 ∧
    (s.state ≠ .seekStart → s.rpl ≠ [] → s.fbuf.length + s.rpl.length ≤ s.cfg.maxLen.val + 1)

/-- A block with an empty queue has room for a byte. -/
theorem State.Inv.hasRoom_of_rpl_nil {s : State} (h : s.Inv) (hq : s.rpl = []) : s.hasRoom := by
  refine ⟨?_, fun _ hne => absurd hq hne⟩
  rw [hq, List.length_nil, Nat.add_zero]
  by_cases hs : s.state = .seekStart
  · simp [h.log_seek hs]
  · exact (h.frameOpen hs).log_le fun hc => (h.cursor_empty hc).1

/-- With the head byte gone from the queue there is room for it in the log. -/
theorem State.Inv.hasRoom_of_rpl_cons {s : State} {b : Byte} {rest : List Byte} (h : s.Inv) (hq : s.rpl = b :: rest) :
    State.hasRoom { s with rpl := rest } := by
  have hbound := h.queue_bound
  have hopen := h.queue_open
  rw [hq, List.length_cons] at hbound hopen
  by_cases hs : s.state = .seekStart
  · refine ⟨?_, fun hne => absurd hs hne⟩
    simp only [h.log_seek hs, List.length_nil]
    omega
  · have := hopen hs (by simp)
    exact ⟨by simp only []; omega, fun _ _ => by simp only []; omega⟩

/-- The invariants do not speak of the pins to come. -/
theorem State.Inv.with_inputs {s : State} (h : s.Inv) (l : List Sample) : State.Inv { s with inputs := l } := { h with }

/-- The invariants hold with a shorter queue. -/
theorem State.Inv.with_rest {s : State} {b : Byte} {rest : List Byte} (h : s.Inv) (hq : s.rpl = b :: rest) :
    State.Inv { s with rpl := rest } := by
  have hne : s.rpl ≠ [] := by simp [hq]
  have hlen : s.rpl.length = rest.length + 1 := by simp [hq]
  exact { h with
    idle_quiet := fun hr => absurd (h.idle_quiet hr).2.2.2 hne
    terminated_quiet := fun hr => absurd (h.terminated_quiet hr).2.2 hne
    queue_bound := by have := h.queue_bound; simp only []; omega
    cursor_empty := fun hc => absurd (h.cursor_empty hc).2 hne
    queue_open := fun hs _ => by have := h.queue_open hs hne; simp only []; omega }

/-! ### The effects keep the invariants -/

/-- A byte logged in CURSOR mode is not kept (R31). -/
theorem State.Inv.logByte_of_cursor {s : State} (h : s.Inv) (b : Byte) (hc : s.cfg.resync = .cursor) :
    (s.logByte b).fbuf = [] := by
  simp [hc, h.cursor_empty hc]

/-- A cleared log is empty in either mode. -/
theorem State.Inv.clearLog_fbuf {s : State} (h : s.Inv) : s.clearLog.fbuf = [] := by
  cases hmode : s.cfg.resync with
  | cursor => simp [hmode, h.cursor_empty hmode]
  | rescan => simp [hmode]

theorem length_logByte_fbuf {s : State} (b : Byte) (hmode : s.cfg.resync = .rescan) :
    (s.logByte b).fbuf.length = s.fbuf.length + 1 := by
  simp [hmode]

theorem length_logByte_fbuf_le (s : State) (b : Byte) : (s.logByte b).fbuf.length ≤ s.fbuf.length + 1 := by
  cases h : s.cfg.resync <;> simp [h]

/-- A frame that stays open after a byte keeps the invariants: what is left to say is what its registers hold. -/
theorem State.Inv.of_logged {s t : State} {b : Byte} (h : s.Inv) (hs : s.state ≠ .seekStart) (hroom : s.hasRoom)
    (ht : t.frameOpen) (hrun : t.run = .running) (hpend : t.pend = .none) (hcfg : t.cfg = s.cfg)
    (hlog : t.fbuf = (s.logByte b).fbuf) (hqueue : t.rpl = s.rpl)
    (hwf : t.mbuf.wf = true) (hwithin : t.mbuf.within t.cfg.maxLen.val = true) : t.Inv := by
  refine .of_frameOpen ht hrun hpend (fun hc => ?_) (fun hne => ?_) hwf hwithin
  · rw [hcfg] at hc
    exact ⟨hlog ▸ h.logByte_of_cursor b hc, hqueue ▸ (h.cursor_empty hc).2⟩
  · rw [hqueue] at hne
    have hle := hroom.2 hs hne
    have hstep := length_logByte_fbuf_le s b
    rw [hlog, hqueue, hcfg]
    omega

/-- A failed frame keeps the invariants: its bytes `q`, which had room in the log, are at the head of the queue (R172, R204). -/
theorem State.Inv.of_failed {s : State} {r : ErrRec} {q : List Byte} (h : s.Inv) (hq : q.length ≤ s.fbuf.length + 1)
    (hrun : s.run = .running) (hroom : s.hasRoom) (hkind : r.e_kind ≠ .none ∧ r.e_kind ≠ .frameTooLarge) :
    State.Inv (State.raiseError r
      { s with rpl := s.ifRescan (q ++ s.rpl) s.rpl, fbuf := s.ifRescan [] s.fbuf }) := by
  have hlog : s.ifRescan [] s.fbuf = [] := (s.ite_rescans_eq_ifRescan [] s.fbuf).symm.trans h.clearLog_fbuf
  have hcursor : s.cfg.resync = .cursor → s.ifRescan (q ++ s.rpl) s.rpl = [] := fun hc => by
    simp [State.ifRescan, hc, h.cursor_empty hc]
  have hbound : (s.ifRescan (q ++ s.rpl) s.rpl).length ≤ s.cfg.maxLen.val + 3 := by
    have hfits := hroom.1
    unfold State.ifRescan
    split
    · rw [List.length_append]
      omega
    · exact h.queue_bound
  exact .of_seekStart rfl hlog (fun hr => by simp [hrun] at hr) (fun hr => absurd hrun hr) hcursor hbound nofun
    (fun _ => hkind) h.buffer_wf h.buffer_within

theorem State.Inv.of_seekSyncEffect {s t : State} (h : s.Inv) (hrun : s.run = .running) (hpend : s.pend = .none)
    (hroom : s.hasRoom) (heff : seekSyncEffect s = .next t) : t.Inv := by
  have hlog := h.clearLog_fbuf
  have hbound := hroom.1
  cases heff
  refine .of_frameOpen ⟨rfl, rfl, rfl, hlog⟩ hrun hpend (fun hc => ⟨hlog, (h.cursor_empty hc).2⟩) (fun _ => ?_)
    h.buffer_wf h.buffer_within
  simp only [hlog, List.length_nil, clearLog_rpl, clearLog_cfg]
  omega

theorem State.Inv.of_addrLatchEffect {b : Byte} {s t : State} (h : s.Inv) (hs : s.state = .readAddress)
    (hrun : s.run = .running) (hpend : s.pend = .none) (hroom : s.hasRoom) (heff : addrLatchEffect b s = .next t) :
    t.Inv := by
  obtain ⟨-, hlen, hrem⟩ := h.address_open hs
  have hlog : s.cfg.resync = .rescan → (s.logByte b).fbuf.length = 1 := fun hmode => by
    rw [length_logByte_fbuf b hmode, h.log_address hs, List.length_nil]
  cases heff
  exact h.of_logged (by simp [hs]) hroom ⟨hlen, hrem, hlog⟩ hrun hpend rfl rfl rfl h.buffer_wf h.buffer_within

theorem State.Inv.of_lenAcceptEffect {b : Byte} {s t : State} (h : s.Inv) (hs : s.state = .readLength)
    (hrun : s.run = .running) (hpend : s.pend = .none) (hroom : s.hasRoom)
    (hb : 1 ≤ b.toNat ∧ b.toNat ≤ s.cfg.maxLen.val) (heff : lenAcceptEffect b s = .next t) : t.Inv := by
  have hreceived : (b - b).toNat = 0 := by simp
  have hwritten : s.mbuf.written (b - b).toNat := fun i hi => absurd (hreceived ▸ hi) (Nat.not_lt_zero i)
  have hlog : s.cfg.resync = .rescan → (s.logByte b).fbuf.length = 2 + (b - b).toNat := fun hmode => by
    rw [length_logByte_fbuf b hmode, h.log_length hmode hs, hreceived]
  cases heff
  exact h.of_logged (by simp [hs]) hroom ⟨hb.1, Nat.le_refl _, hb.2, hwritten, hlog⟩ hrun hpend rfl rfl rfl
    h.buffer_wf h.buffer_within

theorem State.Inv.of_msgStoreEffect {b : Byte} {s t : State} (h : s.Inv) (hs : s.state = .readMessage)
    (hrun : s.run = .running) (hpend : s.pend = .none) (hroom : s.hasRoom) (heff : msgStoreEffect b s = .next t) :
    t.Inv := by
  obtain ⟨hpos, hrem, hlen⟩ := h.message_range hs
  have hnext : (s.len_r - (s.rem - 1)).toNat = s.received.toNat + 1 := by
    unfold State.received
    bv_omega
  have hwritten := Memory.written_write_succ b (h.received_written (.inl hs))
  have hlog : s.cfg.resync = .rescan → (s.logByte b).fbuf.length = 2 + (s.received.toNat + 1) := fun hmode => by
    rw [length_logByte_fbuf b hmode, h.log_message hmode hs]
    omega
  rw [← hnext] at hwritten hlog
  obtain ⟨hindex, rfl⟩ := msgStoreEffect_next heff
  refine h.of_logged (b := b) (by simp [hs]) hroom ?_ hrun hpend rfl rfl rfl (Memory.wf_write _ _ h.buffer_wf)
    (Memory.within_write b hindex h.buffer_within)
  by_cases hlast : s.rem - 1 = 0
  · have hall : s.len_r - (s.rem - 1) = s.len_r := by rw [hlast]; exact BitVec.sub_zero _
    simp only [State.frameOpen, if_pos hlast]
    exact ⟨hlast, Nat.le_trans hpos hrem, hlen, hwritten, by rw [hall] at hlog; exact hlog⟩
  · simp only [State.frameOpen, if_neg hlast]
    have hle : (s.rem - 1).toNat ≤ s.len_r.toNat := by bv_omega
    exact ⟨by bv_omega, hle, hlen, hwritten, hlog⟩

theorem State.Inv.of_chkPassEffect {b : Byte} {s t : State} (h : s.Inv) (hs : s.state = .readChecksum)
    (hrun : s.run = .running) (heff : chkPassEffect b s = .next t) : t.Inv := by
  obtain ⟨hrem, hpos, hlen⟩ := h.checksum_range hs
  have hall : s.received = s.len_r := by simp [State.received, hrem]
  have hwritten := h.received_written (.inr hs)
  rw [hall] at hwritten
  cases heff
  exact .of_seekStart rfl h.clearLog_fbuf (fun hr => by simp [hrun] at hr) (fun hr => absurd hrun hr)
    (fun hc => (h.cursor_empty hc).2) h.queue_bound (fun _ => ⟨hrem, hpos, hlen, hwritten⟩) nofun h.buffer_wf h.buffer_within

/-- A byte that has room in the log keeps the invariants, whichever operation it performs (R89, R173). -/
theorem State.Inv.of_byteEffect {b : Byte} {s t : State} (h : s.Inv) (hrun : s.run = .running) (hpend : s.pend = .none)
    (hroom : s.hasRoom) (heff : byteEffect b s = .next t) : t.Inv := by
  cases hs : s.state with
  | seekStart =>
    rw [byteEffect_seekStart hs] at heff
    split at heff
    · exact h.of_seekSyncEffect hrun hpend hroom heff
    · cases heff
      exact h
  | readAddress =>
    rw [byteEffect_readAddress hs] at heff
    exact h.of_addrLatchEffect hs hrun hpend hroom heff
  | readLength =>
    rw [byteEffect_readLength hs] at heff
    split at heff
    · next hb => exact h.of_lenAcceptEffect hs hrun hpend hroom hb heff
    · rw [lenRejectEffect, State.queueReplay_logByte] at heff
      cases heff
      exact h.of_failed (Nat.le_of_eq List.length_append) hrun hroom ⟨nofun, nofun⟩
  | readMessage =>
    rw [byteEffect_readMessage hs] at heff
    exact h.of_msgStoreEffect hs hrun hpend hroom heff
  | readChecksum =>
    rw [byteEffect_readChecksum hs] at heff
    split at heff
    · exact h.of_chkPassEffect hs hrun heff
    · obtain ⟨c, -, rfl⟩ := chkFailEffect_next heff
      rw [State.queueReplay_logByte]
      exact h.of_failed (Nat.le_of_eq List.length_append) hrun hroom ⟨nofun, nofun⟩

/-- An event operation whose row applies is a byte's, an EOS's, a TERR's or the reserved kind's (R80, R89). -/
theorem effect_event_cases {i : Instr} {s : State} (hf : formatOf i = .evt10) (hs : i.selectedIn s.context = true) :
    (∃ b, effect i s = byteEffect b s) ∨ (∃ x, i = .seekEos x ∧ s.state = .seekStart) ∨
      (∃ x, i = .frameEos x ∧ s.state ≠ .seekStart) ∨ (∃ c, i = .transportError c) ∨ ∃ x, i = .rsvKind x := by
  have hbyte : ∀ b, encode i = some (.event (eventWord 0 b)) → effect i s = byteEffect b s := fun b he => by
    rw [byteEffect_eq_effect, ← decodeEvent_byte]
    exact congrArg (effect · s) (decodeEvent_of_selectedIn he hs).symm
  cases i with
  | seekEos x => exact .inr (.inl ⟨x, rfl, by simpa [Instr.selectedIn, State.context] using hs⟩)
  | frameEos x => exact .inr (.inr (.inl ⟨x, rfl, by simpa [Instr.selectedIn, State.context] using hs⟩))
  | transportError c => exact .inr (.inr (.inr (.inl ⟨c, rfl⟩)))
  | rsvKind x => exact .inr (.inr (.inr (.inr ⟨x, rfl⟩)))
  | seekSync => exact .inl ⟨START_BYTE, hbyte _ rfl⟩
  | seekSkip b | addrLatch b | lenAccept b | lenReject b | msgStore b | chkPass b | chkFail b =>
    exact .inl ⟨b, hbyte b rfl⟩
  | reset _ _ _ | start _ _ | pktAccept _ _ | errAccept _ _ | replayByte | enc _ _ _ => cases hf

/-- With the invariants a block that takes input has an empty queue, in either mode (R31, R150). -/
theorem State.Inv.rpl_nil_of_takesInput {s : State} (h : s.Inv) (ht : s.takesInput) : s.rpl = [] := by
  obtain ⟨-, -, hc | hq⟩ := ht
  · exact (h.cursor_empty hc).2
  · exact hq

/-- RESET gives the invariants from any state (R36). -/
theorem inv_of_execReset {a b c : Bool} {s t : State} (h : execReset a b c s = .next t) : t.Inv := by
  cases h
  exact .of_seekStart rfl rfl (fun _ => rfl) (fun _ => rfl) (fun _ => rfl) (Nat.zero_le _) nofun nofun rfl rfl

/-- An acceptance keeps the invariants (R151, R152). -/
theorem State.Inv.of_accepted {s : State} (h : s.Inv) (d : List Delivery) :
    State.Inv { s with pend := .none, delivered := d } :=
  { h with
    idle_quiet := fun hr => have ⟨hs, _, hlog, hq⟩ := h.idle_quiet hr; ⟨hs, rfl, hlog, hq⟩
    pending_seeks := fun hp => absurd rfl hp
    packet_complete := nofun
    error_kind := nofun }

/-- START keeps the invariants (R154). -/
theorem State.Inv.of_started {s : State} (h : s.Inv) : State.Inv { s with run := .running } :=
  { h with idle_quiet := nofun, terminated_quiet := nofun }

/-- Every event operation that is enabled keeps the invariants. -/
theorem State.Inv.of_event_effect {i : Instr} {s t : State} (h : s.Inv) (hf : formatOf i = .evt10)
    (he : enabled i s = true) (heff : effect i s = .next t) : t.Inv := by
  obtain ⟨ht, hrow⟩ := (enabled_event_iff s hf).mp he
  have hq := h.rpl_nil_of_takesInput ht
  have hroom := h.hasRoom_of_rpl_nil hq
  have ⟨hrun, hpend, _⟩ := ht
  rcases effect_event_cases hf hrow with ⟨b, hb⟩ | ⟨x, rfl, hs⟩ | ⟨x, rfl, hs⟩ | ⟨c, rfl⟩ | ⟨x, rfl⟩
  · exact h.of_byteEffect hrun hpend hroom (hb ▸ heff)
  · cases heff
    exact .of_seekStart rfl (h.log_seek hs) (fun hr => by simp [hrun] at hr) (fun _ => hq) (fun _ => hq) h.queue_bound nofun
      (fun _ => ⟨nofun, nofun⟩) h.buffer_wf h.buffer_within
  · rw [effect, frameEosEffect, State.queueReplay_eq] at heff
    cases heff
    exact h.of_failed (Nat.le_succ _) hrun hroom ⟨nofun, nofun⟩
  · obtain rfl := Host.Outcome.next.inj heff
    have hkind : (transportRecord c s).e_kind = .transportError := by
      unfold transportRecord
      split <;> rfl
    exact .of_seekStart rfl h.clearLog_fbuf nofun (fun _ => hq) (fun _ => hq) h.queue_bound nofun
      (fun _ => by simp [hkind]) h.buffer_wf h.buffer_within
  · cases heff

/-- Every operation that is enabled keeps the invariants. -/
theorem State.Inv.of_effect {i : Instr} {s t : State} (h : s.Inv) (he : enabled i s = true) (heff : effect i s = .next t) :
    t.Inv := by
  cases i with
  | reset a b c => exact inv_of_execReset (a := a) (b := b) (c := c) heff
  | start _ _ =>
    cases heff
    exact h.of_started
  | pktAccept _ _ =>
    obtain ⟨p, -, rfl⟩ := pktAcceptEffect_next heff
    exact h.of_accepted _
  | errAccept _ _ =>
    cases heff
    exact h.of_accepted _
  | replayByte =>
    obtain ⟨-, hrun, hpend, hne⟩ := (enabled_replayByte_iff s).mp he
    obtain ⟨b, rest, hq⟩ := List.exists_cons_of_ne_nil hne
    simp only [effect, replayByteEffect, hq] at heff
    exact (h.with_rest hq).of_byteEffect hrun hpend (h.hasRoom_of_rpl_cons hq) heff
  | enc _ _ _ =>
    cases heff
    exact { h with }
  | _ => exact h.of_event_effect rfl he heff

/-- Settles O34: the step runs an enabled operation, or only drops the pins of this edge. -/
theorem stepKeepsInvariants : Obligations.StepKeepsInvariants := by
  intro s t h hstep
  have hpast : s.pastSample.Inv := h.with_inputs _
  rcases step_next_cases hstep with ⟨i, -, he, heff⟩ | ⟨-, rfl⟩
  · exact hpast.of_effect he heff
  · exact hpast

/-- Settles O33: the reset state is what RESET gives. -/
theorem invariantsHoldAtReset : Obligations.InvariantsHoldAtReset :=
  inv_of_execReset (a := false) (b := false) (c := false) (s := State.reset) rfl

/-- Settles O16: the registers are written out in RESET's effect. -/
theorem resetSetsEveryRegister : Obligations.ResetSetsEveryRegister := fun _ _ _ _ =>
  ⟨_, rfl, rfl, rfl, rfl, rfl, rfl, fun _ => rfl, rfl, rfl, rfl, rfl, rfl, rfl, rfl, rfl, rfl, rfl, rfl, rfl⟩

/-- Settles O44: a canonical buffer inside its bounds lists at most MAX_LEN entries, and log and queue have their bounds. -/
theorem storageStaysBounded : Obligations.StorageStaysBounded := by
  intro n s t h hsteps
  have ht : t.Inv := steps_induction stepKeepsInvariants h hsteps
  have hlog := ht.log_bound
  have hqueue := ht.queue_bound
  exact ⟨Memory.length_le_of_within ht.buffer_wf ht.buffer_within, by omega⟩

/-! ### The step answers -/

/-- A pending packet can be read: its Message is in the buffer and has at least one byte ((I-f) of R35). -/
theorem State.Inv.exists_packet {s : State} (h : s.Inv) (hp : s.pend = .pkt) : ∃ p, s.packet = some p := by
  obtain ⟨-, hpos, -, hwritten⟩ := h.packet_complete hp
  obtain ⟨m, hm⟩ := exists_message_of_written hwritten
  rw [message_eq_some_iff] at hm
  cases m with
  | nil =>
    obtain ⟨hlen, -⟩ := hm
    rw [List.length_nil] at hlen
    omega
  | cons ty p => exact ⟨_, packet_of_holdsMessage hm⟩

/-- With the invariants every enabled operation but RSV.KIND answers a next state (R26, R55). -/
theorem State.Inv.exists_effect_next {i : Instr} {s : State} (h : s.Inv) (he : enabled i s = true)
    (hi : ∀ x, i ≠ .rsvKind x) : ∃ t, effect i s = .next t := by
  cases hf : formatOf i with
  | evt10 =>
    obtain ⟨-, hrow⟩ := (enabled_event_iff s hf).mp he
    rcases effect_event_cases hf hrow with ⟨b, hb⟩ | ⟨x, rfl, -⟩ | ⟨x, rfl, -⟩ | ⟨c, rfl⟩ | ⟨x, rfl⟩
    · rw [hb]
      exact h.exists_byteEffect_next b
    · exact ⟨_, rfl⟩
    · exact ⟨_, rfl⟩
    · exact ⟨_, rfl⟩
    · exact absurd rfl (hi x)
  | _ =>
    cases i with
    | pktAccept a e =>
      obtain ⟨p, hp⟩ := h.exists_packet ((enabled_pktAccept_iff a e s).mp he)
      exact ⟨s.deliverPacket p, by simp only [effect, pktAcceptEffect, hp]⟩
    | replayByte =>
      obtain ⟨-, -, -, hne⟩ := (enabled_replayByte_iff s).mp he
      obtain ⟨b, rest, hq⟩ := List.exists_cons_of_ne_nil hne
      simp only [effect, replayByteEffect, hq]
      exact (h.with_rest hq).exists_byteEffect_next b
    | reset _ _ _ | start _ _ | errAccept _ _ | enc _ _ _ => exact ⟨_, rfl⟩
    | _ => cases hf

/-- The edge consumes an event of the reserved kind (R143). -/
def State.consumesReserved (s : State) : Prop :=
  s.sample.cv.getLsbD 3 = false ∧ s.sample.rx_valid = true ∧ s.takesInput ∧
    ∃ d : Byte, s.sample.ew = (3#2 ++ d : EventWord)

/-- Consuming an event of the reserved kind is selecting RSV.KIND. -/
theorem consumesReserved_iff (s : State) : s.consumesReserved ↔ ∃ x, select s.sample s = some (.rsvKind x) := by
  constructor
  · rintro ⟨hrst, hv, ht, d, hd⟩
    refine ⟨d, (select_of_takesInput hrst hv ht).trans (congrArg some ?_)⟩
    rw [hd]
    exact decodeEvent_reserved _ d
  · rintro ⟨x, hsel⟩
    obtain ⟨hrst, hv, ht⟩ := taken_of_select_event hsel rfl
    have hd := Option.some.inj ((select_of_takesInput hrst hv ht).symm.trans hsel)
    have hword := encode_decodeEvent s.context s.sample.ew
    rw [hd] at hword
    exact ⟨hrst, hv, ht, x, (TableWord.event.inj (Option.some.inj hword)).symm⟩

/-- With the invariants an edge that consumes no event of the reserved kind answers a next state. -/
theorem State.Inv.exists_step_next {s : State} (h : s.Inv) (hres : ¬s.consumesReserved) : ∃ t, step s = .next t := by
  cases hsel : select s.sample s with
  | none => exact ⟨_, step_of_select_none hsel⟩
  | some i =>
    rw [step_of_select hsel]
    refine (h.with_inputs s.inputs.tail).exists_effect_next (enabled_of_select hsel) fun x hx => hres ?_
    exact (consumesReserved_iff s).mpr ⟨x, hx ▸ hsel⟩

/-- An edge that consumes an event of the reserved kind is refused (R143). -/
theorem step_of_consumesReserved {s : State} (h : s.consumesReserved) : step s = .refused .reservedEventKind := by
  obtain ⟨x, hsel⟩ := (consumesReserved_iff s).mp h
  exact step_of_select hsel

/-- Settles O35: an edge consumes the reserved kind and is refused, or answers a next state. -/
theorem stepStopsOnlyOnReservedKind : Obligations.StepStopsOnlyOnReservedKind := by
  intro s h
  by_cases hres : s.consumesReserved
  · have hstep := step_of_consumesReserved hres
    refine ⟨fun f hf => ?_, fun r => ⟨fun hr => ⟨?_, hres⟩, fun ⟨hr, _⟩ => hr ▸ hstep⟩⟩
    · cases hstep.symm.trans hf
    · cases hstep.symm.trans hr
      rfl
  · obtain ⟨t, hstep⟩ := h.exists_step_next hres
    refine ⟨fun f hf => ?_, fun r => ⟨fun hr => ?_, fun ⟨_, hr⟩ => absurd hr hres⟩⟩
    · cases hstep.symm.trans hf
    · cases hstep.symm.trans hr

end Sys2Proof.Machine
end

section
/-! What operations leave unchanged, and how a result becomes pending (R156, R170, R204, R229, R231). A byte ends a frame in two
ways, by a packet or by a failure, and everything that can raise an error is an event operation. -/

namespace Sys2Proof

theorem ErrKind.code_injective : Function.Injective ErrKind.code := by
  intro a b
  cases a <;> cases b <;> decide

/-- The codes of the kinds a frame error can have (R86). -/
theorem ErrKind.code_range {k : ErrKind} (hnone : k ≠ .none) (hlarge : k ≠ .frameTooLarge) :
    1 ≤ k.code.toNat ∧ k.code.toNat ≤ 4 := by
  cases k with
  | none => exact absurd rfl hnone
  | frameTooLarge => exact absurd rfl hlarge
  | _ => decide

theorem ErrCause.code_injective : Function.Injective ErrCause.code := by
  intro a b
  cases a <;> cases b <;> decide

end Sys2Proof

namespace Sys2Proof.Machine

/-- Settles O36: each effect is an update of the registers of its list. -/
theorem operationFrames : Obligations.OperationFrames := by
  intro i s t h
  rcases exec_next_cases h with ⟨he, heff⟩ | ⟨-, rfl⟩
  · cases i with
    | rsvKind _ => cases heff
    | seekEos x =>
      have hs : s.state = .seekStart := by
        simpa [Instr.selectedIn, State.context] using ((enabled_event_iff s (i := .seekEos x) rfl).mp he).2
      cases heff
      simp [writes, hs]
    | msgStore _ =>
      obtain ⟨-, rfl⟩ := msgStoreEffect_next heff
      simp [writes]
    | chkFail _ =>
      obtain ⟨c, -, rfl⟩ := chkFailEffect_next heff
      simp [writes]
    | pktAccept _ _ =>
      obtain ⟨p, -, rfl⟩ := pktAcceptEffect_next heff
      simp [writes]
    | replayByte =>
      simp only [effect, replayByteEffect] at heff
      split at heff
      · cases heff
        simp
      · obtain ⟨hrun, hcfg, hinputs, hdel, henc⟩ := byteEffect_frame heff
        simp [writes, hrun, hcfg, hinputs, hdel, henc]
    | _ =>
      cases heff
      simp [writes]
  · simp

/-- A step that answers a next state ran `exec` of the selected operation, or only dropped the pins. -/
theorem step_next_exec_cases {s t : State} (h : step s = .next t) :
    (∃ i, select s.sample s = some i ∧ exec i s.pastSample = .next t) ∨ (select s.sample s = none ∧ t = s.pastSample) := by
  cases hsel : select s.sample s with
  | none => exact .inr ⟨rfl, (Host.Outcome.next.inj ((step_of_select_none hsel).symm.trans h)).symm⟩
  | some i => exact .inl ⟨i, rfl, (step_eq_exec_of_select hsel).symm.trans h⟩

/-- A step drops the pins of its edge and leaves the parameters (R231). -/
theorem step_frame {s t : State} (h : step s = .next t) : t.cfg = s.cfg ∧ t.inputs = s.inputs.tail := by
  rcases step_next_exec_cases h with ⟨i, -, hexec⟩ | ⟨-, rfl⟩
  · obtain ⟨-, -, -, -, -, -, -, -, -, -, -, -, hcfg, hinputs⟩ := operationFrames i _ t hexec
    exact ⟨hcfg, hinputs⟩
  · exact ⟨rfl, rfl⟩

/-- Settles O41, by induction on the number of steps. -/
theorem parametersNeverChange : Obligations.ParametersNeverChange := fun _ s _ h =>
  steps_induction (P := fun u => u.cfg = s.cfg) (fun _ _ hu hstep => (step_frame hstep).1.trans hu) rfl h

/-- Settles O37: in CURSOR mode the "if RESYNC_MODE = RESCAN" lines do nothing, and REPLAY.BYTE is not enabled. -/
theorem cursorModeHasNoReplay : Obligations.CursorModeHasNoReplay := by
  intro i s t hc hr h
  rcases exec_next_cases h with ⟨he, heff⟩ | ⟨-, rfl⟩
  · cases i with
    | rsvKind _ => cases heff
    | reset _ _ _ => cases hr
    | msgStore _ =>
      obtain ⟨-, rfl⟩ := msgStoreEffect_next heff
      simp [hc]
    | chkFail _ =>
      obtain ⟨c, -, rfl⟩ := chkFailEffect_next heff
      simp [hc]
    | pktAccept _ _ =>
      obtain ⟨p, -, rfl⟩ := pktAcceptEffect_next heff
      simp
    | replayByte =>
      obtain ⟨hmode, -⟩ := (enabled_replayByte_iff s).mp he
      cases hc.symm.trans hmode
    | _ =>
      cases heff
      simp [hc]
  · exact ⟨rfl, rfl⟩

/-! ### How a frame ends -/

/-- What a byte can do: be skipped, open a frame, stay in the open frame, complete a packet, or fail the frame (R89). -/
theorem byteEffect_cases {b : Byte} {s t : State} (h : byteEffect b s = .next t) :
    (s.state = .seekStart ∧ (t = s ∨ t = { s.clearLog with addr_r := 0, len_r := 0, rem := 0, state := .readAddress })) ∨
    (s.state ≠ .seekStart ∧
      ((t.state ≠ .seekStart ∧ t.pend = s.pend ∧ t.fbuf = (s.logByte b).fbuf ∧ t.rpl = s.rpl) ∨
       t = { s.clearLog.emitPacket with state := .seekStart } ∨
       ∃ r, t = (s.logByte b).queueReplay.raiseError r ∧ (r.e_kind = .length ∨ r.e_kind = .checksumMismatch))) := by
  cases hs : s.state with
  | seekStart =>
    rw [byteEffect_seekStart hs] at h
    split at h <;> cases h
    · exact .inl ⟨rfl, .inr rfl⟩
    · exact .inl ⟨rfl, .inl rfl⟩
  | readAddress =>
    rw [byteEffect_readAddress hs] at h
    cases h
    exact .inr ⟨nofun, .inl ⟨nofun, rfl, rfl, rfl⟩⟩
  | readLength =>
    rw [byteEffect_readLength hs] at h
    split at h <;> cases h
    · exact .inr ⟨nofun, .inl ⟨nofun, rfl, rfl, rfl⟩⟩
    · exact .inr ⟨nofun, .inr (.inr ⟨_, rfl, .inl rfl⟩)⟩
  | readMessage =>
    rw [byteEffect_readMessage hs] at h
    obtain ⟨-, rfl⟩ := msgStoreEffect_next h
    refine .inr ⟨nofun, .inl ⟨?_, rfl, rfl, rfl⟩⟩
    change (if s.rem - 1 = 0 then FrameState.readChecksum else FrameState.readMessage) ≠ .seekStart
    split <;> exact nofun
  | readChecksum =>
    rw [byteEffect_readChecksum hs] at h
    split at h
    · cases h
      exact .inr ⟨nofun, .inr (.inl rfl)⟩
    · obtain ⟨c, -, rfl⟩ := chkFailEffect_next h
      exact .inr ⟨nofun, .inr (.inr ⟨_, rfl, .inr rfl⟩)⟩

/-- What an enabled operation other than RESET did: a control operation or ENC changed no register of a frame; else it was a byte,
offered or replayed, an EOS or a TERR. -/
theorem enabled_effect_cases {i : Instr} {s t : State} (hr : isReset i = false) (he : enabled i s = true)
    (heff : effect i s = .next t) :
    (t = { s with run := .running } ∨ (∃ p, t = s.deliverPacket p) ∨ t = s.returnFromError ∨
      ∃ r, t = { s with encOut := some r }) ∨
    (∃ b q, byteEffect b { s with rpl := q } = .next t) ∨
    (s.state = .seekStart ∧ t = s.raiseError { ErrRec.zero with e_kind := .startNotFound }) ∨
    (s.state ≠ .seekStart ∧ ∃ r, t = s.queueReplay.raiseError r ∧ r.e_kind = .length) ∨
    ∃ c, t = { s.clearLog.raiseError (transportRecord c s) with run := .terminated } := by
  cases hf : formatOf i with
  | evt10 =>
    rcases effect_event_cases hf ((enabled_event_iff s hf).mp he).2 with
      ⟨b, hb⟩ | ⟨x, rfl, hs⟩ | ⟨x, rfl, hs⟩ | ⟨c, rfl⟩ | ⟨x, rfl⟩
    · exact .inr (.inl ⟨b, s.rpl, hb ▸ heff⟩)
    · cases heff
      exact .inr (.inr (.inl ⟨hs, rfl⟩))
    · cases heff
      exact .inr (.inr (.inr (.inl ⟨hs, _, rfl, rfl⟩)))
    · cases heff
      exact .inr (.inr (.inr (.inr ⟨c, rfl⟩)))
    · cases heff
  | internal =>
    obtain rfl := (formatOf_eq_internal_iff i).mp hf
    obtain ⟨-, -, -, hne⟩ := (enabled_replayByte_iff s).mp he
    obtain ⟨b, rest, hq⟩ := List.exists_cons_of_ne_nil hne
    simp only [effect, replayByteEffect, hq] at heff
    exact .inr (.inl ⟨b, rest, heff⟩)
  | ctrl4 => exact .inl (effect_next_of_control (.inl hf) hr heff)
  | func => exact .inl (effect_next_of_control (.inr hf) hr heff)

/-- A state in which an error has been raised from `s`: R204's list, the kind, and that TRANSPORT_ERROR alone terminates. -/
def errorRaised (s t : State) : Prop :=
  t.state = .seekStart ∧ t.addr_r = s.addr_r ∧ t.len_r = s.len_r ∧ t.rem = s.rem ∧ t.mbuf = s.mbuf ∧
    t.delivered = s.delivered ∧ t.erec.e_kind ≠ .none ∧ t.erec.e_kind ≠ .frameTooLarge ∧
    (t.erec.e_kind = .transportError → t.run = .terminated) ∧ (t.erec.e_kind ≠ .transportError → t.run = s.run)

/-- A byte raises an error only where it fails a frame. -/
theorem errorRaised_of_byteEffect {b : Byte} {s t : State} (h : byteEffect b s = .next t) (hs : s.pend = .none)
    (ht : t.pend = .err) : errorRaised s t := by
  rcases byteEffect_cases h with ⟨-, rfl | rfl⟩ | ⟨-, ⟨-, hpend, -⟩ | rfl | ⟨r, rfl, hr⟩⟩
  · cases hs.symm.trans ht
  · cases hs.symm.trans ht
  · cases hs.symm.trans (hpend.symm.trans ht)
  · cases ht
  · rcases hr with hr | hr <;> simp [errorRaised, hr]

theorem transportRecord_kind (c : Byte) (s : State) : (transportRecord c s).e_kind = .transportError := by
  unfold transportRecord
  split <;> rfl

/-- Settles O40: the error is raised by a byte, offered or replayed, by an EOS or by a TERR. -/
theorem errorEntryChangesNothingElse : Obligations.ErrorEntryChangesNothingElse := by
  intro i s t h hs ht
  rcases exec_next_cases h with ⟨he, heff⟩ | ⟨-, rfl⟩
  · cases hr : isReset i with
    | true =>
      obtain ⟨a, b, c, rfl⟩ : ∃ a b c, i = .reset a b c := by cases i <;> simp [isReset] at hr ⊢
      cases heff
      cases ht
    | false =>
      rcases enabled_effect_cases hr he heff with
        (rfl | ⟨p, rfl⟩ | rfl | ⟨r, rfl⟩) | ⟨b, q, hb⟩ | ⟨-, rfl⟩ | ⟨-, r, rfl, hr⟩ | ⟨c, rfl⟩
      · cases hs.symm.trans ht
      · cases ht
      · cases ht
      · cases hs.symm.trans ht
      · exact errorRaised_of_byteEffect (s := { s with rpl := q }) hb hs ht
      · simp
      · simp [hr]
      · simp [transportRecord_kind]
  · cases hs.symm.trans ht

/-- The result of a frame: what ends a frame leaves a result pending, and a result that becomes pending in SEEK_START is an error
that belongs to no frame (R156). -/
def resultOfFrame (s t : State) : Prop :=
  (s.state ≠ .seekStart → t.state = .seekStart → t.pend ≠ .none) ∧
    (s.pend = .none → t.pend ≠ .none → s.state = .seekStart →
      t.pend = .err ∧ (t.erec.e_kind = .startNotFound ∨ (t.erec.e_kind = .transportError ∧ t.run = .terminated)))

/-- Where the frame state stays and no result becomes pending, there is nothing to report. -/
theorem resultOfFrame_of_same {s t : State} (hstate : t.state = s.state) (hpend : t.pend = s.pend ∨ t.pend = .none) :
    resultOfFrame s t := by
  refine ⟨fun hn hseek => absurd (hstate ▸ hseek) hn, fun hnone hsome => absurd ?_ hsome⟩
  rcases hpend with h | h
  · exact h.trans hnone
  · exact h

/-- A byte that ends a frame leaves its result pending, and a byte in SEEK_START leaves none. -/
theorem resultOfFrame_of_byteEffect {b : Byte} {s t : State} (h : byteEffect b s = .next t) : resultOfFrame s t := by
  rcases byteEffect_cases h with ⟨hs, rfl | rfl⟩ | ⟨hs, ⟨ht, -⟩ | rfl | ⟨r, rfl, -⟩⟩
  · exact resultOfFrame_of_same rfl (.inl rfl)
  · exact ⟨fun hn => absurd hs hn, fun hpend hn => absurd hpend hn⟩
  · exact ⟨fun _ hseek => absurd hseek ht, fun _ _ hseek => absurd hseek hs⟩
  · exact ⟨fun _ _ => nofun, fun _ _ hseek => absurd hseek hs⟩
  · exact ⟨fun _ _ => nofun, fun _ _ hseek => absurd hseek hs⟩

/-- An enabled operation other than RESET ends a frame with a result, or ends none. -/
theorem resultOfFrame_of_effect {i : Instr} {s t : State} (hr : isReset i = false) (he : enabled i s = true)
    (heff : effect i s = .next t) : resultOfFrame s t := by
  rcases enabled_effect_cases hr he heff with
    (rfl | ⟨p, rfl⟩ | rfl | ⟨r, rfl⟩) | ⟨b, q, hb⟩ | ⟨hs, rfl⟩ | ⟨hs, r, rfl, -⟩ | ⟨c, rfl⟩
  · exact resultOfFrame_of_same rfl (.inl rfl)
  · exact resultOfFrame_of_same rfl (.inr rfl)
  · exact resultOfFrame_of_same rfl (.inr rfl)
  · exact resultOfFrame_of_same rfl (.inl rfl)
  · exact resultOfFrame_of_byteEffect (s := { s with rpl := q }) hb
  · exact ⟨fun hn => absurd hs hn, fun _ _ _ => ⟨rfl, .inl rfl⟩⟩
  · exact ⟨fun _ _ => nofun, fun _ _ hseek => absurd hseek hs⟩
  · exact ⟨fun _ _ => nofun, fun _ _ _ => ⟨rfl, .inr ⟨transportRecord_kind c s, rfl⟩⟩⟩

/-- RESET is selected by `rst` alone. -/
theorem isReset_of_select {x : Sample} {s : State} {i : Instr} (hrst : x.cv.getLsbD 3 = false) (h : select x s = some i) :
    isReset i = false := by
  rcases select_some_cases h with hd | ⟨-, -, rfl⟩ | ⟨-, -, -, rfl⟩
  · obtain ⟨hword, -⟩ := decodeControl_ok hd
    cases i with
    | reset a b c =>
      rw [← TableWord.control.inj (Option.some.inj hword), controlVector_rst] at hrst
      cases hrst
    | _ => rfl
  · rfl
  · have hf := formatOf_decodeEvent s.context x.ew
    cases hi : decodeEvent s.context x.ew with
    | reset _ _ _ => simp [hi, formatOf] at hf
    | _ => rfl

/-- RESET leaves nothing pending. -/
theorem pend_of_isReset {i : Instr} {s t : State} (hr : isReset i = true) (h : effect i s = .next t) : t.pend = .none := by
  cases i with
  | reset _ _ _ =>
    cases h
    rfl
  | _ => cases hr

/-- Settles O39: with a frame open nothing is pending ((I-b) of R35), and a result is pending in SEEK_START alone. -/
theorem oneResultPerAttemptedFrame : Obligations.OneResultPerAttemptedFrame := by
  intro s t h hstep
  have hseeks := (stepKeepsInvariants s t h hstep).pending_seeks
  have hbefore : s.state ≠ .seekStart → s.pend = .none := fun hs =>
    Decidable.byContradiction fun hp => hs (h.pending_seeks hp)
  rcases step_next_cases hstep with ⟨i, hsel, he, heff⟩ | ⟨-, rfl⟩
  · cases hr : isReset i with
    | false =>
      obtain ⟨hends, hseek⟩ : resultOfFrame s t := resultOfFrame_of_effect (s := s.pastSample) hr he heff
      exact ⟨fun hs ht _ => ⟨hbefore hs, hends hs ht⟩, fun hn hp => ⟨hseeks hp, hseek hn hp⟩⟩
    | true =>
      refine ⟨fun _ _ hrst => ?_, fun _ hp => absurd (pend_of_isReset hr heff) hp⟩
      cases hr.symm.trans (isReset_of_select hrst hsel)
  · exact ⟨fun hs ht => absurd ht hs, fun hn hp => absurd hn hp⟩

/-! ### Termination (R229) -/

/-- What a step without `rst` can do to a terminated block: nothing, or deliver the pending result. -/
theorem step_of_terminated {s t : State} (hrun : s.run = .terminated) (hrst : s.sample.cv.getLsbD 3 = false)
    (h : step s = .next t) :
    t = s.pastSample ∨
      (s.pend ≠ .none ∧ ∃ d, t = { s.pastSample with pend := .none, delivered := s.delivered ++ [d] }) := by
  rcases step_next_cases h with ⟨i, hsel, he, heff⟩ | ⟨-, rfl⟩
  · rcases select_some_cases hsel with hd | ⟨-, hr, -⟩ | ⟨-, -, ht, -⟩
    · cases i with
      | reset _ _ _ => cases isReset_of_select hrst hsel
      | start p e => cases hrun.symm.trans ((enabled_start_iff p e s).mp he)
      | pktAccept a e =>
        have hp := (enabled_pktAccept_iff a e s).mp he
        obtain ⟨p, -, rfl⟩ := pktAcceptEffect_next heff
        exact .inr ⟨by simp [hp], _, rfl⟩
      | errAccept a p =>
        have hp := (enabled_errAccept_iff a p s).mp he
        cases heff
        exact .inr ⟨by simp [hp], _, rfl⟩
      | _ => cases (decodeControl_ok hd).1
    · cases hrun.symm.trans ((replayReady_eq_true_iff s).mp hr).2.1
    · cases hrun.symm.trans ht.1
  · exact .inl rfl

/-- The pins of the next edge, when none to come has `rst`. -/
theorem sample_rst_of_inputs {s : State} (h : ∀ x ∈ s.inputs, x.cv.getLsbD 3 = false) : s.sample.cv.getLsbD 3 = false := by
  unfold State.sample
  split
  · exact BitVec.getLsbD_zero
  · next x l hl => exact h x (by simp [hl])

/-- What a terminated block `s` can be after any number of steps without `rst`: its result, if one was pending, is still pending
or has been delivered. -/
def afterTermination (s u : State) : Prop :=
  u.run = .terminated ∧ (∀ x ∈ u.inputs, x.cv.getLsbD 3 = false) ∧ u.erec = s.erec ∧ u.mbuf = s.mbuf ∧ u.state = s.state ∧
    ((u.pend = s.pend ∧ u.delivered = s.delivered) ∨
      (s.pend ≠ .none ∧ u.pend = .none ∧ u.delivered.length = s.delivered.length + 1))

theorem afterTermination_step {s u v : State} (h : afterTermination s u) (hstep : step u = .next v) :
    afterTermination s v := by
  obtain ⟨hrun, hrst, herec, hmbuf, hstate, hpend⟩ := h
  have hrst' : ∀ x ∈ u.inputs.tail, x.cv.getLsbD 3 = false := fun x hx => hrst x (List.mem_of_mem_tail hx)
  rcases step_of_terminated hrun (sample_rst_of_inputs hrst) hstep with rfl | ⟨hp, d, rfl⟩
  · exact ⟨hrun, hrst', herec, hmbuf, hstate, hpend⟩
  · refine ⟨hrun, hrst', herec, hmbuf, hstate, .inr ?_⟩
    rcases hpend with ⟨hsame, hdel⟩ | ⟨-, hnone, -⟩
    · exact ⟨hsame ▸ hp, rfl, by simp [hdel]⟩
    · exact absurd hnone hp

/-- Settles O42, by induction on the number of steps. -/
theorem terminationIsFinal : Obligations.TerminationIsFinal := by
  intro n s t hrun hrst hsteps
  obtain ⟨htrun, -, herec, hmbuf, hstate, hpend⟩ := steps_induction (P := afterTermination s)
    (fun _ _ => afterTermination_step) ⟨hrun, hrst, rfl, rfl, rfl, .inl ⟨rfl, rfl⟩⟩ hsteps
  refine ⟨htrun, herec, hmbuf, hstate, ?_⟩
  rcases hpend with ⟨hsame, hdel⟩ | ⟨hp, -, hlen⟩
  · exact ⟨fun hn => ⟨hdel, hsame.trans hn⟩, by simp [hdel]⟩
  · exact ⟨fun hn => absurd hn hp, Nat.le_of_eq hlen⟩

/-! ### The record of a cut frame, the error port and the checksum's constraints -/

/-- Settles O10: the EOS word is FRAME.EOS's inside a frame, and (I-d), (I-e) and the registers that SEEK.SYNC cleared give what
the record shows. -/
theorem frameEosReportsTruncated : Obligations.FrameEosReportsTruncated := by
  intro s x ht hs
  have hd : decodeEvent s.context (eventWord 1#2 x) = .frameEos x := (decodeEvent_eos s.context x).trans (if_neg hs)
  refine ⟨hd, (exec_of_decodeEvent ht hd).trans ?_, fun h => ⟨fun hst => ?_, fun hst => ?_, fun hst => ?_, fun hst => ?_⟩⟩
  · simp only [effect, frameEosEffect, State.queueReplay_eq, State.raiseError, ErrRec.zero, State.received]
  · obtain ⟨haddr, hlen, hrem⟩ := h.address_open hst
    exact ⟨haddr, hlen, by rw [hlen, hrem]; rfl⟩
  · obtain ⟨hlen, hrem⟩ := h.length_open hst
    exact ⟨hlen, by rw [hlen, hrem]; rfl⟩
  · obtain ⟨hpos, hrem, -⟩ := h.message_range hst
    rw [BitVec.toNat_sub_of_le hrem]
    omega
  · obtain ⟨hrem, -⟩ := h.checksum_range hst
    rw [hrem]
    exact BitVec.sub_zero _

/-- Settles O56: each output is its field or the field's code, the codes are injective, and the kind of a pending error is one of
four. -/
theorem errorPortShowsRecord : Obligations.ErrorPortShowsRecord := by
  intro s h hp
  have hv : s.err_valid = true := by simp [State.err_valid, hp]
  have hcause : s.err_cause = some s.erec.e_cause.code := if_pos hv
  obtain ⟨hnone, hlarge⟩ := h.error_kind hp
  refine ⟨hv, if_pos hv, if_pos hv, if_pos hv, if_pos hv, if_pos hv, if_pos hv, if_pos hv, ?_, ?_,
    s.erec.e_kind.code, if_pos hv, ?_⟩
  · rw [hcause, Option.some.injEq]
    exact ErrCause.code_injective.eq_iff (b := .range)
  · rw [hcause, Option.some.injEq]
    exact ErrCause.code_injective.eq_iff (b := .truncated)
  · obtain ⟨hlow, hhigh⟩ := ErrKind.code_range hnone hlarge
    exact ⟨hlow, hhigh, ErrKind.code_injective.eq_iff (b := .startNotFound), ErrKind.code_injective.eq_iff (b := .length),
      ErrKind.code_injective.eq_iff (b := .checksumMismatch), ErrKind.code_injective.eq_iff (b := .transportError)⟩

/-- No admissible value of the device's checksum at the point of K2 is 0x02 (R134). -/
theorem byteExceptTwo_ne_two (k : Fin 255) : byteExceptTwo k ≠ 0x02 := by
  have hk := k.isLt
  unfold byteExceptTwo
  split <;> bv_omega

/-- Settles O54: the device's function is fixed at the point of K1 and keeps away from 0x02 at the point of K2, and the reference
function is evaluated there. -/
theorem checksumMeetsConstraints : Obligations.ChecksumMeetsConstraints := by
  intro f
  cases f with
  | device => exact ⟨rfl, byteExceptTwo_ne_two _⟩
  | reference => exact ⟨by decide, by decide⟩

end Sys2Proof.Machine
end

section
/-! The frame as a whole (R121, R122, R157, R192). A frame is followed byte by byte: three bytes open it and give its Length, the
Message goes to the buffer by induction over its bytes, and the checksum byte decides which result the consumers then take. -/

namespace Sys2Proof.Machine

/-- FF on the pins opens a frame (R101). -/
theorem step_startByte {s : State} (l : List Sample) (ht : s.takesInput) (hs : s.state = .seekStart) :
    step { s with inputs := Sample.ofByte START_BYTE :: l } =
      .next { s with
        state := .readAddress, addr_r := 0, len_r := 0, rem := 0, fbuf := s.ifRescan [] s.fbuf, inputs := l } := by
  rw [step_byte _ l ht, byteEffect_seekStart (s := { s with inputs := l }) hs, if_pos rfl]
  simp only [seekSyncEffect, State.clearLog_eq, State.ifRescan]

/-- A byte on the pins in READ_ADDRESS is the Address (R110). -/
theorem step_address {s : State} (a : Byte) (l : List Sample) (ht : s.takesInput) (hs : s.state = .readAddress) :
    step { s with inputs := Sample.ofByte a :: l } =
      .next { s with addr_r := a, state := .readLength, fbuf := s.ifRescan (s.fbuf ++ [a]) s.fbuf, inputs := l } := by
  rw [step_byte _ l ht, byteEffect_readAddress (s := { s with inputs := l }) hs]
  simp only [addrLatchEffect, State.logByte_eq, State.ifRescan]

/-- A Length in range on the pins in READ_LENGTH is accepted (R111). -/
theorem step_length {s : State} (b : Byte) (l : List Sample) (ht : s.takesInput) (hs : s.state = .readLength)
    (hb : 1 ≤ b.toNat ∧ b.toNat ≤ s.cfg.maxLen.val) :
    step { s with inputs := Sample.ofByte b :: l } =
      .next { s with
        len_r := b, rem := b, state := .readMessage, fbuf := s.ifRescan (s.fbuf ++ [b]) s.fbuf, inputs := l } := by
  rw [step_byte _ l ht, byteEffect_readLength (s := { s with inputs := l }) hs, if_pos hb]
  simp only [lenAcceptEffect, State.logByte_eq, State.ifRescan]

/-- A byte on the pins in READ_MESSAGE is stored (R120). -/
theorem step_message {s : State} (b : Byte) (l : List Sample) (ht : s.takesInput) (hs : s.state = .readMessage)
    (hindex : s.received.toNat < s.cfg.maxLen.val) :
    step { s with inputs := Sample.ofByte b :: l } =
      .next { s with
        mbuf := s.mbuf.write s.received.toNat b
        rem := s.rem - 1
        state := if s.rem = 1 then .readChecksum else .readMessage
        fbuf := s.ifRescan (s.fbuf ++ [b]) s.fbuf
        inputs := l } := by
  rw [step_byte _ l ht, byteEffect_readMessage (s := { s with inputs := l }) hs]
  exact msgStoreEffect_of_received_lt (s := { s with inputs := l }) b hindex

/-- The `rem` bytes of a Message, offered in turn, are all stored, in order and behind those received before (R121, R122). -/
theorem steps_message {s : State} (bs : List Byte) (l : List Sample) (ht : s.takesInput) (hs : s.state = .readMessage)
    (hlen : bs.length = s.rem.toNat) (hpos : 1 ≤ s.rem.toNat) (hrem : s.rem.toNat ≤ s.len_r.toNat)
    (hmax : s.len_r.toNat ≤ s.cfg.maxLen.val) :
    ∃ m log,
      steps bs.length { s with inputs := bs.map Sample.ofByte ++ l } =
        .next { s with state := .readChecksum, rem := 0, mbuf := m, fbuf := log, inputs := l } ∧
      (∀ i, i < s.len_r.toNat - s.rem.toNat → m.read i = s.mbuf.read i) ∧
      (∀ i, i < bs.length → m.read (s.len_r.toNat - s.rem.toNat + i) = bs[i]?) := by
  induction bs generalizing s with
  | nil =>
    rw [List.length_nil] at hlen
    omega
  | cons b bs ih =>
    rw [List.length_cons] at hlen
    have hindex := received_toNat hrem
    have hstep := step_message b (bs.map Sample.ofByte ++ l) ht hs (received_lt_maxLen hpos hrem hmax)
    rw [hindex] at hstep
    by_cases hlast : s.rem = 1
    · have hnil : bs = [] := List.eq_nil_of_length_eq_zero (by rw [hlast] at hlen; simpa using hlen)
      subst hnil
      rw [if_pos hlast, show s.rem - 1 = 0 by rw [hlast]; rfl] at hstep
      refine ⟨_, _, steps_succ_of_step hstep, fun i hi => Memory.read_write_other _ _ (Nat.ne_of_lt hi), fun i hi => ?_⟩
      obtain rfl : i = 0 := by simpa using hi
      exact Memory.read_write_same ..
    · rw [if_neg hlast] at hstep
      have hpred : (s.rem - 1).toNat = s.rem.toNat - 1 := by bv_omega
      have hmore : s.rem.toNat ≠ 1 := fun h => hlast (BitVec.eq_of_toNat_eq h)
      obtain ⟨m, log, hsteps, hbefore, hafter⟩ := ih (s := { s with
          mbuf := s.mbuf.write (s.len_r.toNat - s.rem.toNat) b
          rem := s.rem - 1
          state := .readMessage
          fbuf := s.ifRescan (s.fbuf ++ [b]) s.fbuf }) ht rfl (by simp only []; omega) (by simp only []; omega)
        (by simp only []; omega) hmax
      simp only [hpred] at hbefore hafter
      refine ⟨m, log, (steps_succ_of_step hstep).trans hsteps, fun i hi => ?_, fun i hi => ?_⟩
      · rw [hbefore i (by omega)]
        exact Memory.read_write_other _ _ (by omega)
      · cases i with
        | zero =>
          rw [Nat.add_zero, hbefore _ (by omega)]
          exact Memory.read_write_same ..
        | succ i =>
          have hi' : i < bs.length := by simpa using hi
          rw [show s.len_r.toNat - s.rem.toNat + (i + 1) = s.len_r.toNat - (s.rem.toNat - 1) + i by omega]
          exact hafter i hi'

/-- Settles O45: (I-d) of R35 gives the ranges. -/
theorem messageBytesAreAllStored : Obligations.MessageBytesAreAllStored := by
  intro s bs l h ht hs hlen
  obtain ⟨hpos, hrem, hmax⟩ := h.message_range hs
  obtain ⟨m, log, hsteps, hbefore, hafter⟩ := steps_message bs l ht hs hlen hpos hrem hmax
  exact ⟨_, hsteps, rfl, ht, rfl, rfl, rfl, rfl, rfl, hbefore, hafter⟩

/-- The first three bytes of a frame lead a seeking block to READ_MESSAGE (R101, R110, R111). -/
theorem steps_header {s : State} (a b : Byte) (l : List Sample) (ht : s.takesInput) (hs : s.state = .seekStart)
    (hb : 1 ≤ b.toNat ∧ b.toNat ≤ s.cfg.maxLen.val) :
    ∃ log, steps 3 { s with inputs := [START_BYTE, a, b].map Sample.ofByte ++ l } =
      .next { s with state := .readMessage, addr_r := a, len_r := b, rem := b, fbuf := log, inputs := l } := by
  have hstart := step_startByte ([a, b].map Sample.ofByte ++ l) ht hs
  have haddr := step_address (s := { s with
    state := .readAddress, addr_r := 0, len_r := 0, rem := 0, fbuf := s.ifRescan [] s.fbuf }) a
    ([b].map Sample.ofByte ++ l) ht rfl
  have hlen := step_length (s := { s with
    state := .readLength, addr_r := a, len_r := 0, rem := 0
    fbuf := s.ifRescan (s.ifRescan [] s.fbuf ++ [a]) (s.ifRescan [] s.fbuf) }) b l ht rfl hb
  exact ⟨_, (steps_succ_of_step hstart).trans ((steps_succ_of_step haddr).trans (steps_succ_of_step hlen))⟩

/-- The bytes of a frame up to its checksum lead a seeking block to READ_CHECKSUM with the Message in the buffer. -/
theorem steps_header_message {s : State} {b : Byte} {m : List Byte} (a : Byte) (l : List Sample) (ht : s.takesInput)
    (hs : s.state = .seekStart) (hm : m.length = b.toNat) (hb : 1 ≤ b.toNat ∧ b.toNat ≤ s.cfg.maxLen.val) :
    ∃ u : State,
      steps (3 + m.length) { s with inputs := [START_BYTE, a, b].map Sample.ofByte ++ (m.map Sample.ofByte ++ l) } =
        .next { u with inputs := l } ∧
      u.takesInput ∧ u.state = .readChecksum ∧ u.addr_r = a ∧ u.len_r = b ∧ u.cfg = s.cfg ∧ u.delivered = s.delivered ∧
      u.holdsMessage m := by
  obtain ⟨log, hheader⟩ := steps_header a b (m.map Sample.ofByte ++ l) ht hs hb
  obtain ⟨buf, log', hmessage, -, hread⟩ := steps_message
    (s := { s with state := .readMessage, addr_r := a, len_r := b, rem := b, fbuf := log }) m l ht rfl hm hb.1 (Nat.le_refl _)
    hb.2
  refine ⟨{ s with state := .readChecksum, addr_r := a, len_r := b, rem := 0, mbuf := buf, fbuf := log' },
    (steps_add hheader).trans hmessage, ht, rfl, rfl, rfl, rfl, rfl, hm, fun i hi => ?_⟩
  simpa using hread i hi

/-- The matching checksum byte, and then an accepting consumer, deliver the packet (R132, R151). -/
theorem steps_checksum_pass {u : State} {ty c : Byte} {p : List Byte} (l : List Sample) (ht : u.takesInput)
    (hs : u.state = .readChecksum) (hm : u.holdsMessage (ty :: p)) (hc : c = chk u.cfg.chk u.addr_r u.len_r (ty :: p)) :
    steps 2 { u with inputs := Sample.ofByte c :: Sample.accept :: l } =
      .next { u with
        state := .seekStart
        fbuf := u.ifRescan [] u.fbuf
        delivered := u.delivered ++ [.packet u.addr_r { messageType := ty, payload := p }]
        inputs := l } := by
  have hbyte := step_byte c (Sample.accept :: l) ht
  have hcheck : State.checksum { u with inputs := Sample.accept :: l } = some c := hc ▸ checksum_of_holdsMessage hm
  rw [byteEffect_readChecksum (s := { u with inputs := Sample.accept :: l }) hs, if_pos hcheck, chkPassEffect_eq] at hbyte
  have haccept := step_accept_packet (s := { u with pend := .pkt, state := .seekStart, fbuf := u.ifRescan [] u.fbuf }) l rfl hm
  refine (steps_succ_of_step hbyte).trans ((steps_succ_of_step haccept).trans ?_)
  rw [steps_zero, ← ht.2.1]

/-- The record of a frame with Address `a`, Length `b` and checksum byte `c` where `e` was expected (R133). -/
def mismatchRecord (a b c e : Byte) : ErrRec :=
  { e_kind := .checksumMismatch, e_cause := .range, e_state := .readChecksum, e_addr := a, e_len := b, e_count := b,
    e_got := c, e_exp := e, e_tcode := 0 }

/-- Any other checksum byte, and then an accepting consumer, deliver the CHECKSUM_MISMATCH record and leave the block seeking
with nothing pending (R133, R152). -/
theorem steps_checksum_fail {u : State} {m : List Byte} {c : Byte} (l : List Sample) (ht : u.takesInput)
    (hs : u.state = .readChecksum) (hm : u.holdsMessage m) (hc : c ≠ chk u.cfg.chk u.addr_r u.len_r m) :
    ∃ v : State, steps 2 { u with inputs := Sample.ofByte c :: Sample.accept :: l } = .next v ∧ v.inputs = l ∧
      v.run = .running ∧ v.pend = .none ∧ v.state = .seekStart ∧ v.cfg = u.cfg ∧
      v.delivered = u.delivered ++ [.error (mismatchRecord u.addr_r u.len_r c (chk u.cfg.chk u.addr_r u.len_r m))] := by
  have hbyte := step_byte c (Sample.accept :: l) ht
  have hcheck : State.checksum { u with inputs := Sample.accept :: l } ≠ some c := by
    rw [show State.checksum { u with inputs := Sample.accept :: l } = _ from checksum_of_holdsMessage hm]
    exact fun h => hc (Option.some.inj h).symm
  rw [byteEffect_readChecksum (s := { u with inputs := Sample.accept :: l }) hs, if_neg hcheck,
    chkFailEffect_of_holdsMessage (s := { u with inputs := Sample.accept :: l }) hm] at hbyte
  have haccept := step_accept_error (s := { u with
    pend := .err
    state := .seekStart
    erec := mismatchRecord u.addr_r u.len_r c (chk u.cfg.chk u.addr_r u.len_r m)
    rpl := u.ifRescan ((u.fbuf ++ [c]) ++ u.rpl) u.rpl
    fbuf := u.ifRescan [] u.fbuf }) l rfl
  exact ⟨_, (steps_succ_of_step hbyte).trans (steps_succ_of_step haccept), rfl, ht.1, rfl, rfl, rfl, rfl⟩

/-- What ENC's frame is: it fits, and its Length byte counts the MessageType and the Payload (R190). -/
theorem encFrame_eq_frame {cfg : Params} {a ty : Byte} {p bytes : List Byte} (h : encFrame cfg a ty p = .frame bytes) :
    ∃ b : Byte, (ty :: p).length = b.toNat ∧ 1 ≤ b.toNat ∧ b.toNat ≤ cfg.maxLen.val ∧
      bytes = [START_BYTE, a, b] ++ (ty :: p) ++ [chk cfg.chk a b (ty :: p)] := by
  by_cases hfit : p.length + 1 ≤ cfg.maxLen.val
  · have hlen := toNat_ofNat_of_le_maxLen hfit
    rw [encFrame_of_length_le hfit] at h
    refine ⟨BitVec.ofNat 8 (p.length + 1), hlen.symm, by omega, by omega, ?_⟩
    rw [← EncResult.frame.inj h, List.append_assoc _ [ty] p]
    rfl
  · rw [encFrame_of_maxLen_lt (Nat.lt_of_not_le hfit)] at h
    cases h

/-- The bytes of an encoded frame, and then an accepting consumer, deliver its packet to a seeking block (R192). -/
theorem steps_encoded_frame {s : State} {a ty : Byte} {p bytes : List Byte} (l : List Sample) (ht : s.takesInput)
    (hs : s.state = .seekStart) (henc : encFrame s.cfg a ty p = .frame bytes) :
    ∃ t, steps (bytes.length + 1) { s with inputs := bytes.map Sample.ofByte ++ Sample.accept :: l } = .next t ∧
      t.delivered = s.delivered ++ [.packet a { messageType := ty, payload := p }] ∧
      t.state = .seekStart ∧ t.takesInput ∧ t.inputs = l := by
  obtain ⟨b, hm, hpos, hmax, rfl⟩ := encFrame_eq_frame henc
  obtain ⟨u, hu, htu, hsu, haddr, hlen, hcfg, hdel, hmessage⟩ := steps_header_message (m := ty :: p) a
    (Sample.ofByte (chk s.cfg.chk a b (ty :: p)) :: Sample.accept :: l) ht hs hm ⟨hpos, hmax⟩
  have hpass := steps_checksum_pass l htu hsu hmessage (by rw [haddr, hlen, hcfg])
  refine ⟨_, Eq.trans ?_ ((steps_add (n := 2) hu).trans hpass), by rw [haddr, hdel], rfl, htu, rfl⟩
  congr 1
  · simp only [List.length_append, List.length_cons, List.length_nil]
  · simp only [List.map_append, List.append_assoc]
    rfl

/-- Settles O46: the consumer accepts at once, and no further pins are driven. -/
theorem encodedFrameIsDelivered : Obligations.EncodedFrameIsDelivered :=
  fun _ _ _ _ _ ht hs henc => steps_encoded_frame [] ht hs henc

/-- Settles O47: the wrong checksum fails the first frame, which in CURSOR mode leaves nothing to replay, so the block seeks again
with the parameters it had. -/
theorem cursorResynchronizes : Obligations.CursorResynchronizes := by
  intro s a ty a' ty' b c p p' bytes ht hs hcursor hlen hmax hc henc
  obtain ⟨u, hu, htu, hsu, haddr, hlenu, hcfgu, hdel, hmessage⟩ := steps_header_message (m := ty :: p) a
    (Sample.ofByte c :: Sample.accept :: (bytes.map Sample.ofByte ++ [Sample.accept])) ht hs hlen.symm ⟨by omega, hmax⟩
  obtain ⟨v, hfail, hrest, hrun, hnone, hseek, hcfg, hfirst⟩ :=
    steps_checksum_fail (bytes.map Sample.ofByte ++ [Sample.accept]) htu hsu hmessage (by rwa [hcfgu, haddr, hlenu])
  rw [hcfgu] at hcfg
  have hready : v.takesInput := ⟨hrun, hnone, .inl ((congrArg Params.resync hcfg).trans hcursor)⟩
  obtain ⟨t, hgood, hsecond, hstate, ⟨-, hpend, -⟩, -⟩ := steps_encoded_frame [] hready hseek (hcfg ▸ henc)
  rw [← hrest] at hgood
  refine ⟨t, Eq.trans ?_ ((steps_add (n := 2 + (bytes.length + 1)) hu).trans ((steps_add hfail).trans hgood)), hstate, hpend, ?_⟩
  · congr 1
    · simp only [List.length_cons]
      omega
    · simp only [List.map_append, List.append_assoc]
      rfl
  · rw [hsecond, hfirst, hcfgu, haddr, hlenu, hdel, List.append_assoc]
    rfl

end Sys2Proof.Machine
end

section
/-! The two resync modes while no attempted frame fails (R177 (f)). A RESCAN state with nothing to replay selects what the CURSOR
state with the same registers selects, and each effect but that of a failing frame keeps the two alike. -/

namespace Sys2Proof.Machine

/-- The RESCAN state with the registers of `s`, the log `log` and nothing to replay. -/
def State.asRescan (log : List Byte) (s : State) : State :=
  { s with cfg := { s.cfg with resync := .rescan }, fbuf := log, rpl := [] }

/-- Nothing of what selects an operation differs, since neither block has a byte to replay (R170, R173). -/
theorem select_asRescan {s : State} (hc : s.cfg.resync = .cursor) (log : List Byte) (x : Sample) :
    select x (s.asRescan log) = select x s := by
  have hreplay : s.replayReady = false := by simp [State.replayReady, hc]
  have hreplay' : (s.asRescan log).replayReady = false := by simp [State.replayReady, State.asRescan]
  have hready : (s.asRescan log).rx_ready = s.rx_ready := by simp [State.rx_ready, State.asRescan, hc]
  have hcontrol : decodeControl (s.asRescan log).context x.cv = decodeControl s.context x.cv := rfl
  have hevent : decodeEvent (s.asRescan log).context x.ew = decodeEvent s.context x.ew := rfl
  simp only [select, hreplay, hreplay', hready, hcontrol, hevent]

/-- The step fails an attempted frame: it leaves the frame with an error, and the block goes on. -/
def failsFrame (s t : State) : Prop := s.state ≠ .seekStart ∧ t.pend = .err ∧ t.run = .running

/-- An effect that fails no frame does the same in both modes, but for the log. -/
theorem effect_asRescan {i : Instr} {s t : State} (log : List Byte) (hc : s.cfg.resync = .cursor) (he : enabled i s = true)
    (heff : effect i s = .next t) (hfail : ¬failsFrame s t) :
    ∃ log', effect i (s.asRescan log) = .next (t.asRescan log') := by
  have hevent := fun hf => (enabled_event_iff (i := i) s hf).mp he
  cases i with
  | seekSync | chkPass _ | transportError _ | reset _ _ _ => cases heff; exact ⟨[], rfl⟩
  | seekSkip _ | seekEos _ | start _ _ | errAccept _ _ | enc _ _ _ => cases heff; exact ⟨log, rfl⟩
  | addrLatch b | lenAccept b => cases heff; exact ⟨log ++ [b], rfl⟩
  | msgStore b =>
    obtain ⟨hlt, rfl⟩ := msgStoreEffect_next heff
    exact ⟨log ++ [b], if_pos hlt⟩
  | pktAccept _ _ =>
    obtain ⟨p, hp, rfl⟩ := pktAcceptEffect_next heff
    have hp' : (s.asRescan log).packet = some p := hp
    exact ⟨log, by simp only [effect, pktAcceptEffect, hp']; rfl⟩
  | lenReject _ | frameEos _ =>
    obtain ⟨⟨hrun, -⟩, hrow⟩ := hevent rfl
    have hs : s.state ≠ .seekStart := fun hs => by simp [Instr.selectedIn, State.context, hs] at hrow
    cases heff
    exact absurd ⟨hs, rfl, hrun⟩ hfail
  | chkFail _ =>
    obtain ⟨⟨hrun, -⟩, hrow⟩ := hevent rfl
    have hs : s.state ≠ .seekStart := fun hs => by simp [Instr.selectedIn, State.context, hs] at hrow
    obtain ⟨c, -, rfl⟩ := chkFailEffect_next heff
    exact absurd ⟨hs, rfl, hrun⟩ hfail
  | rsvKind _ => cases heff
  | replayByte => cases hc.symm.trans ((enabled_replayByte_iff s).mp he).1

/-- Settles O48: both blocks select the same operation, whose effect fails no frame. -/
theorem modesAgreeWhileNoFrameFails : Obligations.ModesAgreeWhileNoFrameFails := by
  rintro s _ t - ⟨hc, log, rfl⟩ hstep hfail
  have hct : t.cfg.resync = .cursor := (congrArg Params.resync (step_frame hstep).1).trans hc
  have hsel : select (s.asRescan log).sample (s.asRescan log) = select s.sample s := select_asRescan hc log s.sample
  rcases step_next_cases hstep with ⟨i, hi, he, heff⟩ | ⟨hnone, rfl⟩
  · obtain ⟨log', hr⟩ := effect_asRescan (s := s.pastSample) log hc he heff hfail
    exact ⟨t.asRescan log', (step_of_select (hsel.trans hi)).trans hr, hct, log', rfl⟩
  · exact ⟨s.pastSample.asRescan log, step_of_select_none (hsel.trans hnone), hct, log, rfl⟩

end Sys2Proof.Machine
end

section
/-! Runs that end (R177 (a), R234). With consumers that accept, an edge that takes no event delivers a result or replays a byte, and
either lessens a measure on log, queue, frame state and `pend`; an edge that takes an event shortens the source's list. -/

namespace Sys2Proof.Machine

/-! ### The measure -/

/-- The work left in log and queue: the bytes of both, squared, since a failed frame puts the log back into the queue without its
StartByte (R172); the bytes an open frame can still take from the queue; and the delivery of a pending result. -/
def State.replayWork (s : State) : Nat :=
  (s.fbuf.length + s.rpl.length) * (s.fbuf.length + s.rpl.length + 2) +
    (if s.state = .seekStart then 0 else s.rpl.length + 1) + (if s.pend = .none then 0 else 1)

/-- A byte dropped from log and queue pays for all that the rest of the queue can do in a frame. -/
theorem square_lt {n m : Nat} (h : n < m) : n * (n + 2) + (n + 1) + 1 < m * (m + 2) := by
  have hmono : (n + 1) * (n + 3) ≤ m * (m + 2) := Nat.mul_le_mul h (by omega)
  have hexpand : (n + 1) * (n + 3) = n * (n + 2) + n + (n + 3) := Nat.succ_mul n (n + 3)
  omega

/-- A replayed byte lessens the work: it is dropped, or it moves to the log of the open frame, or it fails the frame, which is then
no longer open. -/
theorem replayWork_lt_of_byteEffect {b : Byte} {rest : List Byte} {s t : State} (hmode : s.cfg.resync = .rescan)
    (hpend : s.pend = .none) (hq : s.rpl = b :: rest) (h : byteEffect b { s with rpl := rest } = .next t) :
    t.replayWork < s.replayWork := by
  have hlog : (State.logByte b { s with rpl := rest }).fbuf.length = s.fbuf.length + 1 := length_logByte_fbuf b hmode
  have hclear : (State.clearLog { s with rpl := rest }).fbuf = [] := by simp [hmode]
  have hdrop := square_lt (show rest.length < s.fbuf.length + (rest.length + 1) by omega)
  have hskip := square_lt (show s.fbuf.length + rest.length < s.fbuf.length + (rest.length + 1) by omega)
  rcases byteEffect_cases h with ⟨hs, rfl | rfl⟩ | ⟨hs, ⟨ht, htpend, htlog, htq⟩ | rfl | ⟨r, rfl, -⟩⟩
  · simp only [State.replayWork, hq, List.length_cons, if_pos hs, if_pos hpend]
    omega
  · have hsame : (State.clearLog { s with rpl := rest }).pend = .none := hpend
    simp only [State.replayWork, hq, List.length_cons, hclear, clearLog_rpl, hsame, List.length_nil, Nat.zero_add, if_pos hs,
      if_pos hpend, reduceCtorEq, if_true, if_false]
    omega
  · simp only [State.replayWork, hq, List.length_cons, if_neg hs, if_neg ht, htpend, if_pos hpend, htlog, hlog, htq,
      show s.fbuf.length + 1 + rest.length = s.fbuf.length + (rest.length + 1) by omega]
    omega
  · simp only [State.replayWork, hq, List.length_cons, emitPacket_fbuf, emitPacket_rpl, emitPacket_pend, hclear, clearLog_rpl,
      List.length_nil, Nat.zero_add, if_neg hs, if_pos hpend, reduceCtorEq, if_false, if_true]
    omega
  · have hqueue : ((State.logByte b { s with rpl := rest }).queueReplay.raiseError r).rpl.length =
        s.fbuf.length + (rest.length + 1) := by
      simp only [raiseError_rpl, queueReplay_rpl, logByte_rescans, rescans_eq_true_iff, if_pos hmode, List.length_append, hlog,
        logByte_rpl]
      omega
    have hempty : ((State.logByte b { s with rpl := rest }).queueReplay.raiseError r).fbuf = [] := by simp [hmode]
    simp only [State.replayWork, hq, List.length_cons, hqueue, hempty, raiseError_state, raiseError_pend, List.length_nil,
      Nat.zero_add, if_neg hs, if_pos hpend, reduceCtorEq, if_false, if_true]
    omega

/-! ### Edges on which both consumers accept -/

/-- The operations that take no event and that an edge with accepting consumers can select. -/
def isDrain : Instr → Bool
  | .pktAccept _ _ | .errAccept _ _ | .replayByte => true
  | _ => false

theorem formatOf_ne_event_of_isDrain {i : Instr} (h : isDrain i = true) : formatOf i ≠ .evt10 := by
  cases i with
  | pktAccept _ _ | errAccept _ _ | replayByte => exact nofun
  | _ => cases h

/-- What an edge with accepting consumers selects: a delivery, a replay, or the offered event's operation. -/
theorem isDrain_or_event_of_select {x : Sample} {s : State} {i : Instr} (hx : x.cv = controlVector false false true true)
    (h : select x s = some i) : isDrain i = true ∨ (formatOf i = .evt10 ∧ x.rx_valid = true) := by
  rcases select_some_cases h with hd | ⟨-, -, rfl⟩ | ⟨-, hv, -, rfl⟩
  · rw [hx, decodeControl_accept] at hd
    split at hd <;> cases hd
    · exact .inl rfl
    · exact .inl rfl
  · exact .inl rfl
  · exact .inr ⟨formatOf_decodeEvent _ _, hv⟩

/-- Accepting consumers with nothing selected: nothing is pending, nothing is replayed, and no event is taken. -/
theorem quiet_of_select_none {x : Sample} {s : State} (hx : x.cv = controlVector false false true true)
    (h : select x s = none) : s.pend = .none ∧ s.replayReady = false ∧ ¬(x.rx_valid = true ∧ s.takesInput) := by
  have hrst : x.cv.getLsbD 3 = false := hx ▸ controlVector_rst ..
  refine ⟨?_, Bool.eq_false_iff.mpr fun hr => ?_, fun ⟨hv, ht⟩ => ?_⟩
  · have hd := decodeControl_accept s.context
    rw [← hx] at hd
    cases hp : s.pend with
    | none => rfl
    | pkt =>
      rw [show s.context.pend = .pkt from hp] at hd
      cases h.symm.trans (select_of_decodeControl hd)
    | err =>
      rw [show s.context.pend = .err from hp] at hd
      cases h.symm.trans (select_of_decodeControl hd)
  · cases h.symm.trans (select_of_replayReady hrst hr)
  · cases h.symm.trans (select_of_takesInput hrst hv ht)

/-- A delivery or a replay lessens the work and leaves the lifecycle. -/
theorem drain_effect {i : Instr} {s t : State} (hi : isDrain i = true) (he : enabled i s = true)
    (heff : effect i s = .next t) : t.replayWork < s.replayWork ∧ t.run = s.run := by
  have haccepted : ∀ d, s.pend ≠ .none → State.replayWork { s with pend := .none, delivered := d } < s.replayWork :=
    fun d hp => by simp [State.replayWork, hp]
  cases i with
  | pktAccept a e =>
    have hp := (enabled_pktAccept_iff a e s).mp he
    obtain ⟨p, -, rfl⟩ := pktAcceptEffect_next heff
    exact ⟨haccepted _ (by simp [hp]), rfl⟩
  | errAccept a p =>
    have hp := (enabled_errAccept_iff a p s).mp he
    cases heff
    exact ⟨haccepted _ (by simp [hp]), rfl⟩
  | replayByte =>
    obtain ⟨hmode, -, hpend, hne⟩ := (enabled_replayByte_iff s).mp he
    obtain ⟨b, rest, hq⟩ := List.exists_cons_of_ne_nil hne
    simp only [effect, replayByteEffect, hq] at heff
    exact ⟨replayWork_lt_of_byteEffect hmode hpend hq heff, (byteEffect_frame heff).1⟩
  | _ => cases hi

/-- An edge that selects a delivery or a replay answers a state with less work, the invariants and the same lifecycle. -/
theorem State.Inv.exists_drain_step {i : Instr} {s : State} (h : s.Inv) (hsel : select s.sample s = some i)
    (hi : isDrain i = true) :
    ∃ t, step s = .next t ∧ t.Inv ∧ t.run = s.run ∧ t.cfg = s.cfg ∧ t.replayWork < s.replayWork := by
  have hres : ¬s.consumesReserved := fun hres => by
    obtain ⟨x, hx⟩ := (consumesReserved_iff s).mp hres
    rw [Option.some.inj (hsel.symm.trans hx)] at hi
    cases hi
  obtain ⟨t, ht⟩ := h.exists_step_next hres
  have hpast := (step_of_select hsel).symm.trans ht
  obtain ⟨hless, hrun⟩ := drain_effect (s := s.pastSample) hi (enabled_of_select hsel) hpast
  exact ⟨t, ht, stepKeepsInvariants s t h ht, hrun, (step_frame ht).1, hless⟩

/-! ### The replay queue -/

/-- With accepting consumers and no event, log, queue and `pend` drain within as many edges as there is work. -/
theorem State.Inv.drains {s : State} (h : s.Inv) (hrun : s.run = .running) (hmode : s.cfg.resync = .rescan) :
    ∃ n t, n ≤ s.replayWork ∧ steps n { s with inputs := List.replicate n Sample.accept } = .next t ∧
      t.rpl = [] ∧ t.pend = .none := by
  cases hsel : select Sample.accept s with
  | none =>
    obtain ⟨hpend, hreplay, -⟩ := quiet_of_select_none rfl hsel
    have hq : s.rpl = [] := Decidable.byContradiction fun hne => by
      have hready := (replayReady_eq_true_iff s).mpr ⟨hmode, hrun, hpend, hne⟩
      cases hreplay.symm.trans hready
    exact ⟨0, { s with inputs := [] }, Nat.zero_le _, rfl, hq, hpend⟩
  | some i =>
    have hi : isDrain i = true := (isDrain_or_event_of_select rfl hsel).resolve_right fun ⟨_, hv⟩ => by cases hv
    obtain ⟨u, hstep, hu, hurun, hucfg, hless⟩ := (h.with_inputs [Sample.accept]).exists_drain_step hsel hi
    obtain ⟨n, t, hn, hsteps, ht⟩ := hu.drains (hurun.trans hrun) ((congrArg Params.resync hucfg).trans hmode)
    have hbound : n + 1 ≤ s.replayWork := Nat.lt_of_le_of_lt hn hless
    exact ⟨n + 1, t, hbound, (steps_succ_of_step (step_inputs _ hstep)).trans hsteps, ht⟩
termination_by s.replayWork

/-- Settles O49: the work is within the bound. -/
theorem replayQueueDrains : Obligations.ReplayQueueDrains := by
  intro s h hrun hmode
  obtain ⟨n, t, hn, hsteps, ht⟩ := h.drains hrun hmode
  refine ⟨n, t, Nat.le_trans hn ?_, hsteps, ht⟩
  have hframe : (if s.state = .seekStart then 0 else s.rpl.length + 1) ≤ s.fbuf.length + s.rpl.length + 1 := by
    split <;> omega
  have hpend : (if s.pend = .none then 0 else 1) ≤ 1 := by
    split <;> omega
  unfold State.replayWork
  generalize s.fbuf.length + s.rpl.length = k at hframe ⊢
  have hsquare : 2 * (k + 1) * (k + 2) = 2 * (k * (k + 2)) + 2 * (k + 2) := by
    rw [Nat.mul_assoc, Nat.add_mul, Nat.one_mul, Nat.mul_add]
  omega

/-! ### The run on a finite input -/

/-- The end of a run, when the host has nothing left to do. -/
theorem runEnded_iff {e : Environment} {s : State} (he : e.host = []) :
    runEnded e s = true ↔ select e.pins s = none ∧ (e.events = [] ∨ s.run = .terminated) := by
  simp [runEnded, he]

/-- When the host has nothing left to do, the consumers accept (log entry 25). -/
theorem pins_cv_of_host_nil {e : Environment} (he : e.host = []) : e.pins.cv = controlVector false false true true := by
  simp [Environment.pins, he]

/-- After START, an edge of the run that selects nothing ends it. -/
theorem runEnded_of_select_none {e : Environment} {s : State} (he : e.host = []) (hidle : s.run ≠ .idle)
    (hsel : select e.pins s = none) : runEnded e s = true := by
  obtain ⟨hpend, hreplay, hevent⟩ := quiet_of_select_none (pins_cv_of_host_nil he) hsel
  refine (runEnded_iff he).mpr ⟨hsel, Decidable.or_iff_not_imp_left.mpr fun hne => ?_⟩
  have hv : e.pins.rx_valid = true := by simpa [Environment.pins] using hne
  cases hrun : s.run with
  | idle => exact absurd hrun hidle
  | terminated => rfl
  | running =>
    refine absurd ⟨hv, hrun, hpend, ?_⟩ hevent
    cases hmode : s.cfg.resync with
    | cursor => exact .inl rfl
    | rescan =>
      refine .inr (Decidable.byContradiction fun hq => ?_)
      cases hreplay.symm.trans ((replayReady_eq_true_iff s).mpr ⟨hmode, hrun, hpend, hq⟩)

/-- Only RESET leads to IDLE. -/
theorem run_ne_idle_of_effect {i : Instr} {s t : State} (hr : isReset i = false) (hs : s.run ≠ .idle)
    (heff : effect i s = .next t) : t.run ≠ .idle := by
  rcases effect_run_cases hr heff with h | ⟨-, h⟩ | ⟨-, h⟩ <;> simp [h, hs]

/-- What the agents have left after an edge that performs the operation `i`: an event operation has taken the first event (R226). -/
theorem Environment.past_of_select {e : Environment} {s : State} {i : Instr} (h : select e.pins s = some i) :
    e.past s = { host := e.host.tail, events := if formatOf i = .evt10 then e.events.tail else e.events } := by
  simp only [Environment.past, Environment.eventTaken, h, beq_iff_eq]

/-- After START, an edge that takes an event without the reserved kind answers a state with the invariants. -/
theorem State.Inv.exists_event_step {s : State} {i : Instr} {w : EventWord} {ws : List EventWord} (h : s.Inv)
    (hidle : s.run ≠ .idle) (hkind : eventKind w ≠ 3)
    (hsel : select (Environment.pins { host := [], events := w :: ws }) s = some i) :
    ∃ u, step { s with inputs := [Environment.pins { host := [], events := w :: ws }] } = .next u ∧ u.Inv ∧ u.run ≠ .idle := by
  have hpins := h.with_inputs [Environment.pins { host := [], events := w :: ws }]
  have hres : ¬State.consumesReserved { s with inputs := [Environment.pins { host := [], events := w :: ws }] } := by
    rintro ⟨-, -, -, d, hd⟩
    have hword : w = eventWord 3#2 d := hd
    exact hkind (hword ▸ eventKind_eventWord 3#2 d)
  have hrst : (Environment.pins { host := [], events := w :: ws }).cv.getLsbD 3 = false := controlVector_rst ..
  obtain ⟨u, hstep⟩ := hpins.exists_step_next hres
  refine ⟨u, hstep, stepKeepsInvariants _ u hpins hstep, ?_⟩
  rw [step_of_select (s := { s with inputs := [Environment.pins { host := [], events := w :: ws }] }) hsel] at hstep
  exact run_ne_idle_of_effect (s := { s with inputs := [] }) (isReset_of_select hrst hsel) hidle hstep

/-- After START, from a state with the invariants, the run ends; there the events not taken are the last ones. -/
theorem State.Inv.run_ends {s : State} (h : s.Inv) (hidle : s.run ≠ .idle) {events : List EventWord}
    (hkind : ∀ w ∈ events, eventKind w ≠ 3) :
    ∃ n t taken left, runFor n { host := [], events := events } s = .next ({ host := [], events := left }, t) ∧
      events = taken ++ left ∧ runEnded { host := [], events := left } t = true ∧ t.run ≠ .idle ∧ t.Inv := by
  cases hsel : select (Environment.pins { host := [], events := events }) s with
  | none => exact ⟨0, s, [], events, rfl, rfl, runEnded_of_select_none rfl hidle hsel, hidle, h⟩
  | some i =>
    have hnot : runEnded { host := [], events := events } s = false :=
      Bool.eq_false_iff.mpr fun hend => by cases hsel.symm.trans ((runEnded_iff rfl).mp hend).1
    have hpast := Environment.past_of_select hsel
    rcases isDrain_or_event_of_select (pins_cv_of_host_nil rfl) hsel with hi | ⟨hf, hv⟩
    · rw [if_neg (formatOf_ne_event_of_isDrain hi)] at hpast
      obtain ⟨u, hstep, hu, hurun, -, hless⟩ :=
        (h.with_inputs [Environment.pins { host := [], events := events }]).exists_drain_step hsel hi
      obtain ⟨n, t, taken, left, hfor, hend⟩ := hu.run_ends (hurun ▸ hidle) hkind
      exact ⟨n + 1, t, taken, left, by rw [runFor_succ_of_step hnot hstep, hpast]; exact hfor, hend⟩
    · rw [if_pos hf] at hpast
      cases events with
      | nil => cases hv
      | cons w ws =>
        obtain ⟨u, hstep, hu, hurun⟩ := h.exists_event_step hidle (hkind w List.mem_cons_self) hsel
        obtain ⟨n, t, taken, left, hfor, hsplit, hend⟩ := hu.run_ends hurun fun v hv => hkind v (List.mem_cons_of_mem _ hv)
        exact ⟨n + 1, t, w :: taken, left, by rw [runFor_succ_of_step hnot hstep, hpast]; exact hfor,
          congrArg (w :: ·) hsplit, hend⟩
termination_by (events.length, s.replayWork)

/-- The registers that RESET and then START leave, with nothing delivered. -/
def State.started (s : State) : State :=
  { State.reset with cfg := s.cfg, encOut := s.encOut, run := .running }

/-- The first edge of a run is RESET and the second START, and neither takes an event. -/
theorem runOf_succ_succ (n : Nat) (events : List EventWord) (s : State) :
    runOf (n + 2) events s = runFor n { host := [], events := events } s.started := by
  have hrst : (Environment.ofEvents events).pins.cv.getLsbD 3 = true := controlVector_rst ..
  obtain ⟨hreset, -⟩ := controlVectorSelects (State.context { s with delivered := [] }) (Environment.ofEvents events).pins.cv
  have hfirst := Environment.past_of_select (s := { s with delivered := [] }) (select_of_decodeControl (hreset hrst))
  have hstart : select (Environment.pins { host := [controlVector false true false false], events := events })
      { s.started with run := .idle } = some (.start false false) :=
    select_of_decodeControl (decodeControl_of_selectedIn (fun _ => rfl) rfl rfl)
  have hsecond := Environment.past_of_select hstart
  rw [if_neg nofun] at hfirst hsecond
  rw [runOf, runFor_succ_of_step rfl (step_of_rst (s := { s with
    delivered := [], inputs := [(Environment.ofEvents events).pins] }) hrst), hfirst]
  have hstep := step_of_select (s := { s.started with
    run := .idle, inputs := [Environment.pins { host := [controlVector false true false false], events := events }] }) hstart
  exact (runFor_succ_of_step rfl hstep).trans (congrArg (runFor n · s.started) hsecond)

/-- Settles O52: RESET and START lead to a state with the invariants, and from there the run ends. -/
theorem everyRunEnds : Obligations.EveryRunEnds := by
  intro s events hkind
  have hinv : s.started.Inv := State.Inv.of_started (inv_of_execReset (a := false) (b := false) (c := false)
    (s := { s with delivered := [], inputs := [] }) rfl)
  obtain ⟨n, t, taken, left, hfor, hsplit, hend, hidle, ht⟩ := hinv.run_ends nofun hkind
  obtain ⟨hsel, hleft⟩ := (runEnded_iff rfl).mp hend
  have hrun : runOf (n + 2) events s = .next ({ host := [], events := left }, t) :=
    (runOf_succ_succ n events s).trans hfor
  have hobserve : observe (n + 2) events s = some { deliveries := t.delivered, final := t } := by
    simp only [observe, hrun, if_pos hend]
  exact ⟨n + 2, t, taken, left, hobserve, hrun, hsplit, hleft, hidle,
    (quiet_of_select_none (pins_cv_of_host_nil rfl) hsel).1, ht⟩

/-- The pins of the coming edges, with `k` of them to come: what the host has left, and then accepting consumers. -/
theorem take_host_append_replicate (host : List ControlVector) (a : ControlVector) (k : Nat) :
    (host ++ List.replicate (k + 1) a).take (k + 1) = host.headD a :: (host.tail ++ List.replicate k a).take k := by
  cases host with
  | nil => rfl
  | cons cv host =>
    simp only [List.headD_cons, List.tail_cons, List.cons_append, List.take_succ_cons, List.take_append, List.take_replicate]
    rw [show min (k - host.length) (k + 1) = min (k - host.length) k by omega]

/-- At most `n` edges of a run are as many steps of the block, on the pins of those edges. -/
theorem steps_of_runFor {n : Nat} {e f : Environment} {s t : State} (h : runFor n e s = .next (f, t)) :
    ∃ l : List Sample, l.length ≤ n ∧
      l.map Sample.cv = (e.host ++ List.replicate l.length (controlVector false false true true)).take l.length ∧
      steps l.length { s with inputs := l } = .next { t with inputs := [] } := by
  induction n generalizing e s with
  | zero =>
    cases h
    exact ⟨[], Nat.le_refl _, rfl, rfl⟩
  | succ n ih =>
    rcases runFor_succ_cases h with ⟨-, rfl, rfl⟩ | ⟨-, u, hstep, hrest⟩
    · exact ⟨[], Nat.zero_le _, rfl, rfl⟩
    · obtain ⟨l, hlen, hcv, hsteps⟩ := ih hrest
      refine ⟨e.pins :: l, Nat.succ_le_succ hlen, ?_, (steps_succ_of_step (step_inputs l hstep)).trans hsteps⟩
      rw [List.length_cons, take_host_append_replicate, List.map_cons, hcv]
      rfl

/-- Settles O51: the host's control vectors are those of RESET and START. -/
theorem runIsARunOfSteps : Obligations.RunIsARunOfSteps := by
  intro n events s t e h
  exact steps_of_runFor h

end Sys2Proof.Machine
end
